-- ==== Sys2Proof/Machine/Params.lean ====
section
/-! DEFINITION. The named constants of R7. The spec reports these literals as unaudited and asks that each stand in one place
(D16), so they are here, directly under Machine/, where a later repair may still mend one, and the types, the encodings and
the operations read them. A constant that R8 fixes through another is defined by that relation; Config.lean refuses a
configuration the model cannot be (R8). Log entry 13. -/

namespace Sys2Proof.Config

/-- `TOKEN_DATA_WIDTH`, the data bits of a token and the width of a byte (R7, D3). -/
abbrev tokenDataWidth : Nat := 8

/-- `CNT_WIDTH`, the bits of the payload byte counter (R7, D27). -/
abbrev cntWidth : Nat := 5

/-- `CRC_WIDTH`, the bits of the CRC register (R7). -/
abbrev crcWidth : Nat := 8

/-- `N_S16`, the signed fields of a Record (R7). -/
abbrev nS16 : Nat := 10

/-- `DATA_LEN`, the payload bytes the CRC covers and the Record unpacks, by R8's relation to the fields: 24
(R7; 90_conflicts C1 settles 24 against 23). -/
abbrev dataLen : Nat := 4 + 2 * nS16

/-- `PAYLOAD_LEN`, the bytes after a sentinel, checksum included: 25 (R7, R8). -/
def payloadLen : Nat := dataLen + 1

/-- `FRAME_LEN`, sentinel and payload: 26 (R7, R8). -/
def frameLen : Nat := payloadLen + 1

/-- `SYNC_BYTE`, the sentinel (R7). -/
def syncByte : BitVec tokenDataWidth := BitVec.ofNat tokenDataWidth 0x41

/-- `CRC_POLY`, the generator x^8 + x^2 + x + 1 without its leading term; the full form is 0x107 (R7, 90_conflicts C2). -/
def crcPoly : BitVec crcWidth := BitVec.ofNat crcWidth 0x07

/-- `CRC_INIT`, the register at the start of each frame (R7). -/
def crcInit : BitVec crcWidth := BitVec.ofNat crcWidth 0x00

/-- `CRC_REFIN`: bytes enter the CRC most significant bit first (R7). -/
def crcRefIn : Bool := false

/-- `CRC_REFOUT`: the result is not reflected (R7). -/
def crcRefOut : Bool := false

/-- `CRC_XOROUT`: no final exclusive-or (R7). -/
def crcXorOut : BitVec crcWidth := BitVec.ofNat crcWidth 0x00

/-- `OUT_DEPTH`, the outcomes the block can hold undelivered (R7, D9). -/
def outDepth : Nat := 1

end Sys2Proof.Config
end

