-- ==== Sys2Proof/Word.lean ====
section
/-! DEFINITION. The words and the named values of the block: bytes, keys, the four phases, tokens, transactions, records and outcomes.
Types only, and the plainest abbreviations; whatever an encoding or a computation could get wrong stands in Decode.lean
and in the files of Machine/. -/

namespace Sys2Proof

/-- A data byte, bit 7 the most significant (R10, D3). -/
abbrev Byte := BitVec Config.tokenDataWidth

/-- The CRC register (R22). -/
abbrev CrcReg := BitVec Config.crcWidth

/-- The 13-bit decode key: kind (bits 12, 11), phase (10, 9), eos (8), data (7..0) (R65). -/
abbrev Key := BitVec 13

/-- The payload byte counter `cnt`, `CNT_WIDTH` bits (R21). -/
abbrev Count := BitVec Config.cntWidth

/-- The output port's data word `out_data[191:0]`, `DATA_LEN` bytes (R32). -/
abbrev DataWord := BitVec (Config.tokenDataWidth * Config.dataLen)

/-- A delivered outcome as the port carries it: `out_kind`, then `out_data` (R63). -/
abbrev OutWord := BitVec (1 + Config.tokenDataWidth * Config.dataLen)

/-- The sequencer state `phase` (R20). All four values of its 2 bits are used. -/
inductive Phase where
  | hunt
  | body
  | check
  | done
  deriving DecidableEq, Repr

/-- The kind of a held outcome, `out_kind` (R24). -/
inductive OutKind where
  | record
  | corrupt
  deriving DecidableEq, Repr

/-- One transfer on the input port: `tok = {eos, data}` (R60). -/
structure Token where
  eos : Bool
  data : Byte
  deriving DecidableEq, Repr

/-- A transaction the environment offers (R30). `reserved` is the transaction kind 0b11: the spec says none exists,
and that a model able to represent one refuses it (R69). -/
inductive Txn where
  | inp (tok : Token)
  | out
  | reset
  | reserved
  deriving DecidableEq, Repr

/-- A Record: one unsigned number and `N_S16` signed ones, in the order of the wire (R15, R121). -/
structure Record where
  f0 : Nat
  fs : Vector Int Config.nS16
  deriving DecidableEq, Repr

/-- What DELIVER hands to the sink: a Record, or a Corruption Event, which carries no data (R120, D10). -/
inductive FrameOutcome where
  | record (r : Record)
  | corrupt
  deriving DecidableEq, Repr

end Sys2Proof
end

