-- ==== Sys2Proof/Machine/Crc.lean ====
section
/-! DEFINITION. The CRC-8 function (R100, R101), bit by bit. The shift-and-exclusive-or loop is marked by the spec as general
knowledge (R100; log entry 12). -/

namespace Sys2Proof.Machine

/-- One turn of the loop of R100: shift left, and exclusive-or the polynomial when the top bit, bit 7, was set. -/
def crcShift (c : CrcReg) : CrcReg :=
  if c.getLsbD (Config.crcWidth - 1) then (c <<< 1) ^^^ Config.crcPoly else c <<< 1

/-- A byte as it enters the CRC: as it is, for the input is not reflected (R3, R44). -/
def crcIn (b : Byte) : Byte := if Config.crcRefIn then b.reverse else b

/-- The register as it is compared: as it is, for the output is not reflected and has no final exclusive-or (R3, R44). -/
def crcOut (r : CrcReg) : CrcReg :=
  (if Config.crcRefOut then r.reverse else r) ^^^ Config.crcXorOut

/-- `CRC8_STEP(r, b)`: fold one byte into the register, one turn of the loop for each of its bits (R100). -/
def crc8Step (r : CrcReg) (b : Byte) : CrcReg := Nat.repeat crcShift Config.tokenDataWidth (r ^^^ crcIn b)

/-- `CRC8(m)`: fold the bytes in stream order, from `CRC_INIT` (R101). -/
def crc8 (m : List Byte) : CrcReg := crcOut (m.foldl crc8Step Config.crcInit)

end Sys2Proof.Machine
end

