-- ==== Sys2Proof/Config.lean ====
section
/-! DEFINITION. What is fixed for the machine: the refusal of a configuration the model cannot be (R8), and the free values,
constants with no body that stand for what the spec leaves unspecified. -/

namespace Sys2Proof.Config

/-- The consistency relations of R8, and what the model's form needs of the widths: the counter holds every payload index, a
token's byte fits the 13-bit key (R65) and the CRC register (R100), and one flag holds the one outcome. -/
def consistent : Bool :=
  dataLen == 4 + 2 * nS16 && payloadLen == dataLen + 1 && frameLen == payloadLen + 1
    && decide (payloadLen ≤ 2 ^ cntWidth) && tokenDataWidth == 8 && crcWidth == tokenDataWidth && outDepth == 1

/-- A configuration that breaks a relation is refused: this file does not compile with it (R8). -/
theorem consistent_holds : consistent = true := by decide

/-- FREE VALUE: what byte `i` of buf holds while nothing has written it since power-up. The spec leaves the contents
unspecified (R23, R36; 93_implementation_defined: any value). Log entry 6. -/
opaque freeByte : Nat → Byte

/-- FREE VALUE: `out_kind` after the `n`-th RESET transaction of a run, which the spec leaves unspecified (R24, R151).
Log entry 5. -/
opaque freeOutKind : Nat → BitVec 1

end Sys2Proof.Config
end

