-- ==== Sys2Proof/Syntax.lean ====
section
/-! DEFINITION. The operations of the block, one constructor per row of opcode_table.json (R66). -/

namespace Sys2Proof

/-- An operation, as the decode key selects it (R65, R66). The only operand any of them carries is the token's data byte
(R72); the data bits of an EOS token and the low bits of an OUT or RESET key are ignored (R61, R65). -/
inductive Instr where
  /-- SKIP: discard a byte that is not the sentinel, in HUNT (R80). -/
  | skip (data : Byte)
  /-- SYNC: the sentinel byte, in HUNT (R81). -/
  | sync
  /-- EOS_IDLE: end of stream in HUNT (R82). -/
  | eosIdle
  /-- LOAD: a data byte, in BODY (R90). -/
  | load (data : Byte)
  /-- EOS_BODY: end of stream in BODY (R91). -/
  | eosBody
  /-- CHECK: the checksum byte, in CHECK (R103). -/
  | check (data : Byte)
  /-- EOS_CHECK: end of stream in CHECK (R104). -/
  | eosCheck
  /-- DELIVER: the sink takes the held outcome (R120). -/
  | deliver
  /-- RESET: back to the start of a session (R150). -/
  | reset
  deriving DecidableEq, Repr

end Sys2Proof
end

