-- ==== Sys2Proof/WellFormed.lean ====
section
/-! DEFINITION. Which operations the operation map can give: the extra condition of R66. -/

namespace Sys2Proof

/-- The one check on an operand: SKIP's byte is not the sentinel, for key 0x0041 is SYNC (R66, R67). -/
def wellFormed : Instr → Bool
  | .skip data => decide (data ≠ Config.syncByte)
  | .sync => true
  | .eosIdle => true
  | .load _ => true
  | .eosBody => true
  | .check _ => true
  | .eosCheck => true
  | .deliver => true
  | .reset => true

end Sys2Proof
end

