-- ==== Sys2Proof/Decode.lean ====
section
/-! DEFINITION. The decode key and its fields, the decoder (total, rejecting by name), the encoder, the operation map of R66 as a
table of rows, the token word, and the key a transaction gives in a phase. -/

namespace Sys2Proof

/-! ## The codes of the key's fields -/

/-- The 2-bit encoding of `phase` (R20). -/
def phaseBits : Phase → BitVec 2
  | .hunt => 0b00#2
  | .body => 0b01#2
  | .check => 0b10#2
  | .done => 0b11#2

/-- The phase that 2 bits encode; no encoding is unused (R20). -/
def phaseOfBits (v : BitVec 2) : Phase :=
  if v = 0b00#2 then .hunt
  else if v = 0b01#2 then .body
  else if v = 0b10#2 then .check
  else .done

/-- The transaction kind IN (R65). -/
def kindIn : BitVec 2 := 0b00#2

/-- The transaction kind OUT (R65). -/
def kindOut : BitVec 2 := 0b01#2

/-- The transaction kind RESET (R65). -/
def kindReset : BitVec 2 := 0b10#2

/-- The reserved transaction kind (R65, R69). -/
def kindReserved : BitVec 2 := 0b11#2

/-- `key = {kind, phase, eos, data}`, the first named in the most significant bits (R65). -/
def mkKey (kind : BitVec 2) (phase : BitVec 2) (eos : Bool) (data : Byte) : Key :=
  kind ++ phase ++ BitVec.ofBool eos ++ data

/-- `key[12:11]` (R65). -/
def keyKind (k : Key) : BitVec 2 := k.extractLsb' 11 2

/-- `key[10:9]` (R65). -/
def keyPhase (k : Key) : Phase := phaseOfBits (k.extractLsb' 9 2)

/-- `key[8]` (R65). -/
def keyEos (k : Key) : Bool := k.getLsbD 8

/-- `key[7:0]`, the only operand (R65, R72). -/
def keyData (k : Key) : Byte := k.extractLsb' 0 Config.tokenDataWidth

/-! ## Tokens and transactions as words -/

/-- The 9-bit word of a token, `{eos, data}` (R60). -/
def tokenWord (t : Token) : BitVec 9 := BitVec.ofBool t.eos ++ t.data

/-- The token that a 9-bit word encodes (R60). -/
def tokenOfWord (w : BitVec 9) : Token := { eos := w.getLsbD 8, data := w.extractLsb' 0 Config.tokenDataWidth }

/-- The key of a transaction in a phase (R65). The bits that OUT, RESET and the reserved kind do not fix are given as 0. -/
def keyOf (phase : Phase) : Txn → Key
  | .inp tok => mkKey kindIn (phaseBits phase) tok.eos tok.data
  | .out => mkKey kindOut (phaseBits phase) false 0#Config.tokenDataWidth
  | .reset => mkKey kindReset (phaseBits phase) false 0#Config.tokenDataWidth
  | .reserved => mkKey kindReserved (phaseBits phase) false 0#Config.tokenDataWidth

/-- The transaction a key belongs to (R65). -/
def txnOfKey (k : Key) : Txn :=
  if keyKind k = kindIn then .inp { eos := keyEos k, data := keyData k }
  else if keyKind k = kindOut then .out
  else if keyKind k = kindReset then .reset
  else .reserved

/-! ## The decoder -/

/-- Why a key decodes to no operation. -/
inductive DecodeError where
  /-- Kind 0b11, keys 0x1800..0x1FFF: no such transaction exists (R69). -/
  | reservedKind
  /-- A token offered in DONE, keys 0x0600..0x07FF: a hold, never enabled (R70 (a)). -/
  | inputWhenDone
  deriving DecidableEq, Repr

/-- An IN key whose token is a data byte, by phase (R66). -/
def decodeData (phase : Phase) (data : Byte) : Except DecodeError Instr :=
  match phase with
  | .hunt => if data = Config.syncByte then .ok .sync else .ok (.skip data)
  | .body => .ok (.load data)
  | .check => .ok (.check data)
  | .done => .error .inputWhenDone

/-- An IN key whose token is EOS, by phase; its data bits are ignored (R61, R66). -/
def decodeEos (phase : Phase) : Except DecodeError Instr :=
  match phase with
  | .hunt => .ok .eosIdle
  | .body => .ok .eosBody
  | .check => .ok .eosCheck
  | .done => .error .inputWhenDone

/-- The operation of a key (R66 to R70), for every one of the 8192 keys. -/
def decode (k : Key) : Except DecodeError Instr :=
  if keyKind k = kindIn then
    if keyEos k then decodeEos (keyPhase k) else decodeData (keyPhase k) (keyData k)
  else if keyKind k = kindOut then .ok .deliver
  else if keyKind k = kindReset then .ok .reset
  else .error .reservedKind

/-! ## The encoder -/

/-- The key of an operation (R66), its ignored bits 0. -/
def encode : Instr → Key
  | .skip data => mkKey kindIn 0b00#2 false data
  | .sync => mkKey kindIn 0b00#2 false Config.syncByte
  | .eosIdle => mkKey kindIn 0b00#2 true 0#Config.tokenDataWidth
  | .load data => mkKey kindIn 0b01#2 false data
  | .eosBody => mkKey kindIn 0b01#2 true 0#Config.tokenDataWidth
  | .check data => mkKey kindIn 0b10#2 false data
  | .eosCheck => mkKey kindIn 0b10#2 true 0#Config.tokenDataWidth
  | .deliver => mkKey kindOut 0b00#2 false 0#Config.tokenDataWidth
  | .reset => mkKey kindReset 0b00#2 false 0#Config.tokenDataWidth

/-! ## The operation map as the spec writes it -/

/-- One row of the map of R66: its fixed bits, which bits are fixed, and whether it excludes the sentinel byte. -/
structure OpRow where
  mnemonic : String
  fixed : Key
  mask : Key
  notSync : Bool
  deriving DecidableEq, Repr

/-- The nine rows of R66, with the match and mask numbers the spec writes; SYNC's match is the key of `SYNC_BYTE` in HUNT,
0x0041 (R7 wants that literal in one place). -/
def opRows : List OpRow :=
  [ { mnemonic := "SKIP", fixed := 0x0000#13, mask := 0x1F00#13, notSync := true },
    { mnemonic := "SYNC", fixed := mkKey kindIn 0b00#2 false Config.syncByte, mask := 0x1FFF#13, notSync := false },
    { mnemonic := "EOS_IDLE", fixed := 0x0100#13, mask := 0x1F00#13, notSync := false },
    { mnemonic := "LOAD", fixed := 0x0200#13, mask := 0x1F00#13, notSync := false },
    { mnemonic := "EOS_BODY", fixed := 0x0300#13, mask := 0x1F00#13, notSync := false },
    { mnemonic := "CHECK", fixed := 0x0400#13, mask := 0x1F00#13, notSync := false },
    { mnemonic := "EOS_CHECK", fixed := 0x0500#13, mask := 0x1F00#13, notSync := false },
    { mnemonic := "DELIVER", fixed := 0x0800#13, mask := 0x1800#13, notSync := false },
    { mnemonic := "RESET", fixed := 0x1000#13, mask := 0x1800#13, notSync := false } ]

/-- A key matches a row: `(k & mask) == match` and the row's extra condition (R66). DELIVER's condition on `out_valid` is an
enabling condition on the state and is not part of the key. -/
def rowMatches (k : Key) (r : OpRow) : Bool :=
  k &&& r.mask == r.fixed && !(r.notSync && keyData k == Config.syncByte)

/-- The row of the map that an operation is an instance of. -/
def mnemonicOf : Instr → String
  | .skip _ => "SKIP"
  | .sync => "SYNC"
  | .eosIdle => "EOS_IDLE"
  | .load _ => "LOAD"
  | .eosBody => "EOS_BODY"
  | .check _ => "CHECK"
  | .eosCheck => "EOS_CHECK"
  | .deliver => "DELIVER"
  | .reset => "RESET"

/-! ## The opcode table's numbering -/

/-- The key that `nbits` bits of a number hold. A key has 13 bits; a set bit above them is no key (log entry 9). -/
def keyOfNat (nbits w : Nat) : Option Key :=
  if w % 2 ^ nbits < 2 ^ 13 then some (BitVec.ofNat 13 (w % 2 ^ nbits)) else none

/-- The operation the decoder reads from a table word: bit 0 of the word is bit 0 of the key, for the key is one word. -/
def decodeTableWord (nbits w : Nat) : Option Instr :=
  match keyOfNat nbits w with
  | none => none
  | some k =>
    match decode k with
    | .ok i => some i
    | .error _ => none

end Sys2Proof
end

