-- ==== Sys2Proof/Machine/State.lean ====
section
/-! DEFINITION. The state of the block and of its environment, the reasons a step can stop, and the state after reset. -/

namespace Sys2Proof.Machine

/-- The payload buffer `buf` as data: the bytes written so far, by index, indexes strictly rising (R40, R23). -/
abbrev Memory := List Host.Cell

/-- The block's six registers (R20 to R24), then three fields of the model's own: what the environment does next, what the
sink has taken, and how many free values have been drawn. -/
structure State where
  /-- The sequencer state (R20). -/
  phase : Phase
  /-- The payload index of the next payload byte (R21). -/
  cnt : Count
  /-- The running CRC-8 of the frame's data bytes (R22). -/
  crc : CrcReg
  /-- The payload buffer, 24 bytes (R23). -/
  buf : Memory
  /-- An outcome is held for the sink (R24). -/
  outValid : Bool
  /-- The kind of the held outcome (R24). -/
  outKind : OutKind
  /-- MODEL: the environment's transactions still to come, first one next (R30, R74; log entry 1). -/
  pending : List Txn
  /-- MODEL: the outcomes handed to the sink, oldest first (R123; log entry 3). -/
  delivered : List FrameOutcome
  /-- MODEL: how many free values have been drawn (log entry 5). -/
  freeCount : Nat
  deriving DecidableEq, Repr

/-- Why a step can fault: for no reason. The block raises no exception, trap or fault, and a model of it has no fault outcome
for its operations (R130), so this type has no value. SAFE: no step stops with it. -/
inductive Fault where
  deriving DecidableEq, Repr

/-- Why a step can be refused. -/
inductive Refusal where
  /-- Raised by exec for an operation with no meaning yet. None is left. SAFE: nothing follows it. -/
  | notModelled (mnemonic : String)
  /-- Raised by step when the environment offers a transaction of the reserved kind 0b11, as R69 asks. SAFE: nothing
  follows it, and the spec says no such transaction exists. -/
  | reservedKind
  deriving DecidableEq, Repr

/-- The outcome of one step of this machine. -/
abbrev Result := Host.Outcome State Fault Refusal

/-- The state after reset (R151), nothing offered and nothing delivered yet. buf lists nothing: its contents are
unspecified (log entry 6). `outKind` is unspecified by the spec; RECORD = 0 is the model's choice (log entry 4). -/
def State.reset : State where
  phase := .hunt
  cnt := 0#Config.cntWidth
  crc := 0#Config.crcWidth
  buf := []
  outValid := false
  outKind := .record
  pending := []
  delivered := []
  freeCount := 0

end Sys2Proof.Machine
end

