-- ==== Sys2Proof/Machine/Ops.lean ====
section
/-! DEFINITION. The shared operations: the payload buffer, holding, consuming a transaction, ending a session, the key that is fetched.
The block takes no exception and returns from none (R130, R134, R135), so no operation here does either. -/

namespace Sys2Proof.Machine

/-! ## The payload buffer (R40) -/

/-- The indexes of buf rise strictly from `lo` and stay below `DATA_LEN`. -/
def memRisingFrom : Nat → Memory → Bool
  | _, [] => true
  | lo, (a, _) :: m => decide (lo ≤ a) && decide (a < Config.dataLen) && memRisingFrom (a + 1) m

/-- The canonical form of buf. An unlisted byte has no value of its own, so no entry repeats one. -/
def memWf (m : Memory) : Bool := memRisingFrom 0 m

/-- The byte written at index `i`, if one has been. -/
def memRead? : Memory → Nat → Option Byte
  | [], _ => none
  | (a, b) :: m, i => if a = i then some b else memRead? m i

/-- What a byte that nothing has written reads as: a free value (R36; log entry 6). -/
def memUnwritten (i : Nat) : Byte := Config.freeByte i

/-- `MemRead(i, 1)` (R12). -/
def memRead (m : Memory) (i : Nat) : Byte := (memRead? m i).getD (memUnwritten i)

/-- The entry for index `i` put in its place, or replaced. -/
def memInsert : Memory → Nat → Byte → Memory
  | [], i, b => [(i, b)]
  | (a, c) :: m, i, b =>
    if i < a then (i, b) :: (a, c) :: m
    else if i = a then (i, b) :: m
    else (a, c) :: memInsert m i b

/-- `MemWrite(i, 1, b)` (R12). buf has no byte at `DATA_LEN` or above (R40), and a write there reaches none (log entry 8). -/
def memWrite (m : Memory) (i : Nat) (b : Byte) : Memory := if i < Config.dataLen then memInsert m i b else m

/-- Bytes `0 .. n-1` of buf, in stream order. -/
def memPrefix (m : Memory) (n : Nat) : List Byte := (List.range n).map (memRead m)

/-! ## Steps -/

/-- A transaction that is not enabled has no step (R30; `txnStep` says so). Where an answer is asked for all the same, everything
stays as it is, and the party that offers the transaction keeps it (R70; log entry 2). -/
def hold (s : State) : Result := .next s

/-- The transaction the environment offered has happened: it is off the list. For IN this is `accept(tok)`, the only way
a token leaves the source (R13, R49). -/
def consume (s : State) : State := { s with pending := s.pending.tail }

/-- The environment offers `t` next, before all else it has to offer (R30). -/
def offer (t : Txn) (s : State) : State := { s with pending := t :: s.pending }

/-- How many outcomes are held for the sink: one while `out_valid` is 1 (R24). -/
def heldCount (s : State) : Nat := s.outValid.toNat

/-- There is room for an outcome, `OUT_DEPTH` being 1: `out_valid == 0` (R31, R51). -/
def hasRoom (s : State) : Bool := decide (heldCount s < Config.outDepth)

/-- An IN operation of phase `p` is enabled: `phase == p && out_valid == 0` (R80 to R104). -/
def inEnabled (p : Phase) (s : State) : Bool := decide (s.phase = p) && hasRoom s

/-- An IN operation of phase `p`: what it does when enabled, a hold otherwise (R30). -/
def whenIn (p : Phase) (s : State) (act : State → Result) : Result :=
  if inEnabled p s then act (consume s) else hold s

/-- The session ends: `phase <- DONE`, and nothing else (R82, R91, R104). -/
def endSession (s : State) : State := { s with phase := .done }

/-- The key the block decodes next: that of the first pending transaction in the present phase (R65). -/
def fetch (s : State) : Option Key := s.pending.head?.map (keyOf s.phase)

/-- What a key that decodes to no operation does: the reserved kind is refused (R69); a token in DONE is held (R70 (a)). -/
def undecoded (e : DecodeError) (s : State) : Result :=
  match e with
  | .reservedKind => .refused .reservedKind
  | .inputWhenDone => hold s

/-- `s` with the transaction of key `k` offered next, in the phase that key names and with `out_valid` as an IN or an OUT
needs it, so that the next step runs the key's operation (log entry 9). -/
def offerKey (s : State) (k : Key) : State :=
  match txnOfKey k with
  | .inp tok => { s with pending := .inp tok :: s.pending, phase := keyPhase k, outValid := false }
  | .out => { s with pending := .out :: s.pending, outValid := true }
  | .reset => { s with pending := .reset :: s.pending }
  | .reserved => { s with pending := .reserved :: s.pending }

end Sys2Proof.Machine
end

