-- ==== Sys2Proof/Machine/Operands.lean ====
section
/-! DEFINITION. The operand forms: the buffer index, the fields of a Record, the output port's data word, and the Record as bytes.
The data byte of a token is the operand the constructors of Instr carry (R72). -/

namespace Sys2Proof.Machine

/-- The index LOAD writes at: `cnt` (R90). -/
def loadIndex (s : State) : Nat := s.cnt.toNat

/-- `u32({a, b, c, d})`, big-endian (R11, R43). -/
def u32Of (a b c d : Byte) : Nat := (a ++ b ++ c ++ d : BitVec 32).toNat

/-- `s16({hi, lo})`, big-endian, two's complement (R11, R43). -/
def s16Of (hi lo : Byte) : Int := (hi ++ lo : BitVec 16).toInt

/-- `Unpack(d0 .. d23)` (R121): f0 from the first four bytes, then `N_S16` fields of two bytes each. The field at place `j`
of the vector is f(j+1), so its bytes are 2j+4 and 2j+5 (R43). -/
def unpack (d : Nat → Byte) : Record where
  f0 := u32Of (d 0) (d 1) (d 2) (d 3)
  fs := Vector.ofFn fun j => s16Of (d (2 * j + 4)) (d (2 * j + 5))

/-- The ordered list of 11 integers a Record is (R121). -/
def recordList (r : Record) : List Int := (r.f0 : Int) :: r.fs.toList

/-- `{d 0, d 1, ..., d (n-1)}`, the first byte in the most significant place (R11). -/
def bytesWord (d : Nat → Byte) : (n : Nat) → BitVec (Config.tokenDataWidth * n)
  | 0 => BitVec.ofNat (Config.tokenDataWidth * 0) 0
  | n + 1 => bytesWord d n ++ d n

/-- `{buf[0], buf[1], ..., buf[23]}` (R32). -/
def bufWord (m : Memory) : DataWord := bytesWord (memRead m) Config.dataLen

/-- Field 0 of a data word: `u32(out_data[191:160])` (R64). -/
def wordField0 (w : DataWord) : Nat := (w.extractLsb' (16 * Config.nS16) 32).toNat

/-- Field `k`, for k = 1..10, of a data word: `s16(out_data[16*(10-k)+15 : 16*(10-k)])` (R64). -/
def wordField (w : DataWord) (k : Nat) : Int := (w.extractLsb' (16 * (Config.nS16 - k)) 16).toInt

/-- A byte of a number, counted from its least significant one. -/
def byteOf (v : BitVec 32) (i : Nat) : Byte := v.extractLsb' (8 * i) 8

/-- A u32 as four bytes, big-endian (R75). A number beyond the range of R75 wraps (log entry 14). -/
def u32Bytes (v : Nat) : List Byte :=
  [byteOf (BitVec.ofNat 32 v) 3, byteOf (BitVec.ofNat 32 v) 2, byteOf (BitVec.ofNat 32 v) 1, byteOf (BitVec.ofNat 32 v) 0]

/-- An s16 as two bytes, big-endian two's complement (R75). A number beyond the range of R75 wraps (log entry 14). -/
def s16Bytes (v : Int) : List Byte :=
  [byteOf (BitVec.ofInt 32 v) 1, byteOf (BitVec.ofInt 32 v) 0]

/-- The 24 data bytes of a Record on the wire (R62, R75). -/
def recordBytes (r : Record) : List Byte := u32Bytes r.f0 ++ r.fs.toList.flatMap s16Bytes

/-- `v` is in the range of an s16 field (R75). -/
def s16InRange (v : Int) : Bool := decide (-32768 ≤ v) && decide (v ≤ 32767)

/-- Every field is in the range R75 gives it. -/
def recordInRange (r : Record) : Bool := decide (r.f0 < 2 ^ 32) && r.fs.toList.all s16InRange

end Sys2Proof.Machine
end

