-- ==== Sys2Proof/Machine/Flags.lean ====
section
/-! DEFINITION. The status flags `out_valid` and `out_kind`: what sets and clears them, the outcome they hold, and the derived signals
`in_ready` and `done` (R24, R27, R31 to R33). -/

namespace Sys2Proof.Machine

/-- The encoding of `out_kind`: RECORD = 0, CORRUPT = 1 (R24). -/
def outKindBit : OutKind → BitVec 1
  | .record => 0#1
  | .corrupt => 1#1

/-- The kind that one bit encodes (R24). -/
def outKindOfBit (b : BitVec 1) : OutKind := if b = 0#1 then .record else .corrupt

/-- `in_ready = (phase != DONE) && (out_valid == 0)` (R31). -/
def inReady (s : State) : Bool := decide (s.phase ≠ .done) && hasRoom s

/-- `done = (phase == DONE)` (R33). -/
def done (s : State) : Bool := decide (s.phase = .done)

/-- `emit RECORD` or `emit CORRUPT`: the outcome is held (R13). -/
def emit (k : OutKind) (s : State) : State := { s with outValid := true, outKind := k }

/-- The kind CHECK emits: RECORD exactly when the checksum byte equals the CRC (R103). -/
def checkKind (c : Byte) (s : State) : OutKind := if c = crcOut s.crc then .record else .corrupt

/-- The outcome held for the sink: the Record unpacked from buf, or a Corruption Event, with no data (R120). -/
def heldOutcome (s : State) : FrameOutcome :=
  match s.outKind with
  | .record => .record (unpack (memRead s.buf))
  | .corrupt => .corrupt

/-- `deliver`: the held outcome goes to the sink and `out_valid <- 0` (R13, R120). -/
def handOver (s : State) : State :=
  { s with delivered := s.delivered ++ [heldOutcome s], outValid := false }

/-- `out_data`, when it is part of an outcome: a RECORD is held (R32). Otherwise its value is unspecified and the model
gives none (log entry 11). -/
def outData (s : State) : Option DataWord :=
  match s.outValid, s.outKind with
  | true, .record => some (bufWord s.buf)
  | _, _ => none

/-- `w = {out_kind, out_data}` is an output word the port may carry while an outcome is held (R63): the kind bit is fixed,
and the data are fixed for a RECORD only. -/
def outWordAllowed (s : State) (w : OutWord) : Bool :=
  s.outValid && w.extractLsb' (Config.tokenDataWidth * Config.dataLen) 1 == outKindBit s.outKind
    && (decide (s.outKind = .corrupt) || w.extractLsb' 0 (Config.tokenDataWidth * Config.dataLen) == bufWord s.buf)

end Sys2Proof.Machine
end

