-- ==== Sys2Proof/Machine/Output.lean ====
section
/-! DEFINITION. The OUT transaction: DELIVER (43_output). -/

namespace Sys2Proof.Machine

/-- DELIVER: the held outcome goes to the sink; with none held, OUT is not enabled (R120, R70 (c)). -/
def execDeliver (s : State) : Result :=
  if s.outValid then .next (handOver (consume s)) else hold s

end Sys2Proof.Machine
end

