-- ==== Sys2Proof/Machine/Payload.lean ====
section
/-! DEFINITION. The operations of phase BODY: LOAD and EOS_BODY (41_payload). -/

namespace Sys2Proof.Machine

/-- What LOAD writes (R90). Every right-hand side reads the state before the step (R12). -/
def loadByte (data : Byte) (s : State) : State :=
  { s with
    buf := memWrite s.buf (loadIndex s) data
    crc := crc8Step s.crc data
    cnt := s.cnt + 1#Config.cntWidth
    phase := if loadIndex s = Config.dataLen - 1 then .check else s.phase }

/-- LOAD: the byte goes to `buf[cnt]` and into the CRC; the 24th leads to CHECK (R90). With `cnt` at 24 or above, where no
reachable state has it (R21), no byte of buf is written and the rest happens as always (R130; log entry 8). -/
def execLoad (data : Byte) (s : State) : Result := whenIn .body s fun s => .next (loadByte data s)

/-- EOS_BODY: the session ends inside the data bytes; the partial frame gives no outcome (R91). -/
def execEosBody (s : State) : Result := whenIn .body s fun s => .next (endSession s)

end Sys2Proof.Machine
end

