-- ==== Sys2Proof/Machine/Reset.lean ====
section
/-! DEFINITION. The RESET transaction (70_reset_and_hazards). -/

namespace Sys2Proof.Machine

/-- RESET: back to the start of a session from any state; a held outcome and a partial frame are dropped (R150). `out_kind` is
left unspecified, a free value (log entry 5). buf is not written (log entry 7). What the sink has taken stays taken
(log entry 3). -/
def execReset (s : State) : Result :=
  .next
    { consume s with
      phase := .hunt
      cnt := 0#Config.cntWidth
      crc := 0#Config.crcWidth
      outValid := false
      outKind := outKindOfBit (Config.freeOutKind s.freeCount)
      freeCount := s.freeCount + 1 }

end Sys2Proof.Machine
end

