-- ==== Sys2Proof/Machine/Synchronizer.lean ====
section
/-! DEFINITION. The operations of phase HUNT: SKIP, SYNC, EOS_IDLE (40_synchronizer). -/

namespace Sys2Proof.Machine

/-- SKIP: the byte is discarded and nothing else changes (R80). The sentinel byte is no SKIP (R66; log entry 10). -/
def execSkip (data : Byte) (s : State) : Result :=
  if data = Config.syncByte then hold s else whenIn .hunt s .next

/-- SYNC: a frame opens, with its CRC at CRC_INIT; buf is not cleared (R81). -/
def execSync (s : State) : Result :=
  whenIn .hunt s fun s => .next { s with phase := .body, cnt := 0#Config.cntWidth, crc := Config.crcInit }

/-- EOS_IDLE: the session ends at a frame boundary, with no outcome (R82). -/
def execEosIdle (s : State) : Result := whenIn .hunt s fun s => .next (endSession s)

end Sys2Proof.Machine
end

