-- ==== Sys2Proof/Machine/Validator.lean ====
section
/-! DEFINITION. The operations of phase CHECK: CHECK and EOS_CHECK (42_validator). -/

namespace Sys2Proof.Machine

/-- CHECK: the checksum byte is compared with the CRC and the outcome is held; the byte is not stored, crc and buf keep their
values (R103). -/
def execCheck (data : Byte) (s : State) : Result :=
  whenIn .check s fun s => .next { emit (checkKind data s) s with phase := .hunt, cnt := 0#Config.cntWidth }

/-- EOS_CHECK: the session ends one byte short of a frame; the CRC is not compared and there is no outcome (R104). -/
def execEosCheck (s : State) : Result := whenIn .check s fun s => .next (endSession s)

end Sys2Proof.Machine
end

