-- ==== Sys2Proof/Machine/Dispatch.lean ====
section
/-! DEFINITION. One arm per operation: which meaning it has. -/

namespace Sys2Proof.Machine

def exec (i : Instr) (s : State) : Host.Outcome State Fault Refusal :=
  match i with
  | .skip data => Sys2Proof.Machine.execSkip data s
  | .sync => Sys2Proof.Machine.execSync s
  | .eosIdle => Sys2Proof.Machine.execEosIdle s
  | .load data => Sys2Proof.Machine.execLoad data s
  | .eosBody => Sys2Proof.Machine.execEosBody s
  | .check data => Sys2Proof.Machine.execCheck data s
  | .eosCheck => Sys2Proof.Machine.execEosCheck s
  | .deliver => Sys2Proof.Machine.execDeliver s
  | .reset => Sys2Proof.Machine.execReset s

end Sys2Proof.Machine
end

