-- ==== Sys2Proof/Machine/Step.lean ====
section
/-! DEFINITION. One step of the machine, and the placing of an operation where the step takes its next one. -/

namespace Sys2Proof.Machine

/-- One step under the environment's list is one transaction: the first one pending, decoded from its key (R65) and executed. With
nothing pending the block waits and keeps all of its state (R141, R163; log entry 2). The relation of R30, with no step for a
transaction not enabled, is `txnStep`; `step_eq_txnStep` says how the two agree. -/
def step (s : State) : Host.Outcome State Fault Refusal :=
  match fetch s with
  | none => hold s
  | some k =>
    match decode k with
    | .ok i => exec i s
    | .error e => undecoded e s

/-- `s` with the transaction of a table word offered next, in the phase its key names (log entry 9). A word with a bit above
the key's 13 names no transaction and leaves `s` as it is. -/
def State.withFetchWord (s : State) (nbits w : Nat) : State :=
  match keyOfNat nbits w with
  | none => s
  | some k => offerKey s k

end Sys2Proof.Machine
end

