-- ==== Sys2Proof/Machine/Transaction.lean ====
section
/-! DEFINITION. The step relation of R30: the step that a transaction of the environment's choice is, none where it is not enabled,
and the outcome that the transaction hands over. -/

namespace Sys2Proof.Machine

/-- The transaction is enabled (R30): IN iff `in_ready`, OUT iff `out_valid`, RESET always, the reserved kind never. -/
def enabled (t : Txn) (s : State) : Bool :=
  match t with
  | .inp _ => inReady s
  | .out => s.outValid
  | .reset => true
  | .reserved => false

/-- The next state that a result answers, if it answers one. -/
def nextState? (r : Result) : Option State :=
  match r with
  | .next t => some t
  | .fault _ => none
  | .refused _ => none

/-- R30's own form, `step : State -> Txn -> Option State`: the state the transaction leads to, `none` where it is not enabled and
so is no step (R70). Which transaction happens is the environment's choice, an argument here, and `pending` is left as it is.
The reserved kind is none of the three transactions (R69), and no step. -/
def txnStep (s : State) (t : Txn) : Option State := if enabled t s then nextState? (step (offer t s)) else none

/-- The outcome that the transaction hands over (R30): DELIVER's, the held one (R120). No other transaction hands one over
(R133). -/
def txnOutcome (s : State) (t : Txn) : Option FrameOutcome :=
  match t with
  | .out => if s.outValid then some (heldOutcome s) else none
  | .inp _ => none
  | .reset => none
  | .reserved => none

end Sys2Proof.Machine
end

