-- ==== Sys2Proof/Machine/Ports.lean ====
section
/-! DEFINITION. The ports of R28 and R29: what the environment drives, what the block drives, and which transaction a sample of the
input signals brings about. -/

namespace Sys2Proof.Machine

/-- The signals the environment drives (R28, R29). -/
structure PortIn where
  inValid : Bool
  inEos : Bool
  inData : Byte
  outReady : Bool
  rst : Bool
  deriving DecidableEq, Repr

/-- The signals the block drives (R28, R29). `outData` is `none` where the spec leaves it unspecified (R32). -/
structure PortOut where
  inReady : Bool
  outValid : Bool
  outKind : OutKind
  outData : Option DataWord
  done : Bool
  deriving DecidableEq, Repr

/-- The outputs are functions of the state; observing them changes nothing (R49). -/
def portsOf (s : State) : PortOut where
  inReady := inReady s
  outValid := s.outValid
  outKind := s.outKind
  outData := outData s
  done := done s

/-- The transaction that happens on a sample of the input signals: RESET before any handshake (R133), OUT when an outcome is
held and taken, IN when a token is presented and `in_ready` is 1 (R28, R29); otherwise none, and everyone waits. -/
def arbitrate (p : PortIn) (s : State) : Option Txn :=
  if p.rst then some .reset
  else if p.outReady && s.outValid then some .out
  else if p.inValid && inReady s then some (.inp { eos := p.inEos, data := p.inData })
  else none

/-- One step of the block under a sample of its input signals, whatever its environment's list says. -/
def portStep (p : PortIn) (s : State) : Result :=
  match arbitrate p s with
  | none => hold s
  | some t => step (offer t s)

end Sys2Proof.Machine
end

