-- ==== Sys2Proof/Machine/Stream.lean ====
section
/-! DEFINITION. The stream notation: its lines as transactions (R74), and the pseudo-operations as lists of lines (R75). -/

namespace Sys2Proof.Machine

/-- `B hh` (R74). -/
def lineB (data : Byte) : Txn := .inp { eos := false, data := data }

/-- `EOS`, its data bits 0 (R74). -/
def lineEos : Txn := .inp { eos := true, data := 0#Config.tokenDataWidth }

/-- `TAKE` (R74). -/
def lineTake : Txn := .out

/-- `RST` (R74). -/
def lineRst : Txn := .reset

/-- `BYTES h1 ... hn` (R75). -/
def bytesLines (bs : List Byte) : List Txn := bs.map lineB

/-- A frame around 24 data bytes, whose checksum byte is exclusive-ored with `m`. -/
def frameOf (m : Byte) (data : List Byte) : List Txn :=
  lineB Config.syncByte :: (bytesLines data ++ [lineB (crc8 data ^^^ m)])

/-- `FRAME f0, ..., f10` (R75). -/
def frameLines (r : Record) : List Txn := frameOf 0#Config.tokenDataWidth (recordBytes r)

/-- R75 gives FRAMEX for m in 0x01..0xFF only. -/
def frameXInRange (m : Byte) : Bool := decide (m ≠ 0#Config.tokenDataWidth)

/-- `FRAMEX m, f0, ..., f10`, the checksum byte corrupted by `m` (R75). DESIGN CHOICE (log entry 14): R75 gives no meaning to
m = 0, where this is the good FRAME. -/
def frameXLines (m : Byte) (r : Record) : List Txn := frameOf m (recordBytes r)

/-- R75 gives PART for n in 0..24 only: at least the checksum byte of the frame is missing. -/
def partInRange (n : Nat) : Bool := decide (n + 1 < Config.frameLen)

/-- `PART n, f0, ..., f10`: the sentinel and `n` payload bytes (R75). DESIGN CHOICE (log entry 14): R75 gives no meaning to
n above 24, where this is the whole FRAME. -/
def partLines (n : Nat) (r : Record) : List Txn := (frameLines r).take (n + 1)

end Sys2Proof.Machine
end

