-- ==== Sys2Proof/Safety.lean ====
section
/-! DEFINITION. What claims are stated in: the invariants of R34, the end of a run and quiescence (R156), and runs of several steps. -/

namespace Sys2Proof.Machine

/-- The first `n` bytes of buf have all been written. -/
abbrev writtenTo (m : Memory) (n : Nat) : Prop := ∀ i, i < n → (memRead? m i).isSome = true

/-- The invariants of R34, with the canonical form of buf and the range of `cnt` (R21). Clause (g) says what the state can
say of it: the 24 bytes have been written and their CRC is the register CHECK compared with. -/
structure BlockInv (s : State) : Prop where
  /-- buf keeps its canonical form. -/
  memory : memWf s.buf = true
  /-- `cnt` is 0..24: values 25..31 are never reached (R21). -/
  count : s.cnt.toNat ≤ Config.dataLen
  /-- R34 (a). -/
  hunt : s.phase = .hunt → s.cnt = 0#Config.cntWidth
  /-- R34 (b). -/
  body : s.phase = .body → s.cnt.toNat < Config.dataLen
  /-- R34 (c): the next byte is the last of the payload, the checksum (R42). -/
  check : s.phase = .check → s.cnt.toNat = Config.payloadLen - 1
  /-- The captured bytes are those LOAD wrote (R92). -/
  captured : s.phase = .body ∨ s.phase = .check → writtenTo s.buf s.cnt.toNat
  /-- R34 (d). -/
  crc : s.phase = .body ∨ s.phase = .check → s.crc = crc8 (memPrefix s.buf s.cnt.toNat)
  /-- R34 (e). -/
  held : s.outValid = true → s.phase = .hunt
  /-- R34 (f). -/
  ended : s.phase = .done → s.outValid = false
  /-- R34 (g), its bytes. -/
  recordWritten : s.outValid = true → s.outKind = .record → writtenTo s.buf Config.dataLen
  /-- R34 (g), its CRC. -/
  recordCrc : s.outValid = true → s.outKind = .record → s.crc = crc8 (memPrefix s.buf Config.dataLen)

/-- A run of the block has ended (R156). -/
def runEnded (s : State) : Bool := decide (s.phase = .done) && !s.outValid

/-- Quiescent but not ended: the environment offers no enabled transaction (R156). -/
def quiescent (s : State) : Bool :=
  !runEnded s && !(match s.pending.head? with
    | none => false
    | some t => enabled t s)

/-- `n` steps lead from `s` to `t`, each answering a next state. -/
def runsTo : Nat → State → State → Prop
  | 0, s, t => s = t
  | n + 1, s, t => ∃ u, step s = .next u ∧ runsTo n u t

end Sys2Proof.Machine
end

