-- ==== Sys2Proof/Certificates/Slice0/Obligations.lean ====
section
/-! DEFINITION. The statements for the provers. Each docstring names the rule of the spec it formalises, or the sections it is derived
from and the log entries of the model's own choices it rests on. -/

open Sys2Proof Sys2Proof.Machine

/-! ## Encoding and decoding -/

/-- Every well-formed operation, with every operand, is what its key decodes to (R65, R66). -/
def Obligations.DecodeOfEncode : Prop :=
  ∀ i : Instr, wellFormed i = true → decode (encode i) = .ok i

/-- R66: a key that matches a row of the operation map decodes to that row's operation, whose operand, if it carries one,
is the key's data byte (R72). -/
def Obligations.MatchingRowGivesOperation : Prop :=
  ∀ (k : Key) (r : OpRow), r ∈ opRows → rowMatches k r = true →
    ∃ i, decode k = .ok i ∧ wellFormed i = true ∧ mnemonicOf i = r.mnemonic
      ∧ (∀ b, i = .skip b ∨ i = .load b ∨ i = .check b → b = keyData k)

/-- The law derived in R67: a key matches at most one row, and the sentinel key 0x0041 is SYNC. -/
def Obligations.RowsAreDisjoint : Prop :=
  (∀ (k : Key) (r r' : OpRow), r ∈ opRows → r' ∈ opRows → rowMatches k r = true → rowMatches k r' = true → r = r')
    ∧ decode 0x0041#13 = .ok .sync

/-- The law derived in R68: the key of an enabled transaction matches exactly one row, that of the operation it decodes to. -/
def Obligations.EnabledTransactionHasOneRow : Prop :=
  ∀ (s : State) (t : Txn), enabled t s = true →
    ∃ i r, decode (keyOf s.phase t) = .ok i ∧ wellFormed i = true ∧ r ∈ opRows ∧ r.mnemonic = mnemonicOf i
      ∧ ∀ r' ∈ opRows, (rowMatches (keyOf s.phase t) r' = true ↔ r' = r)

/-- R69: the reserved kind (keys 0x1800 and up, and no others) decodes to no operation, and a step offered a transaction of
that kind is refused. -/
def Obligations.ReservedKindIsRefused : Prop :=
  (∀ k : Key, decode k = .error .reservedKind ↔ 0x1800 ≤ k.toNat)
    ∧ ∀ (s : State) (rest : List Txn), s.pending = .reserved :: rest → step s = .refused .reservedKind

/-- R61: an EOS token with any data bits decodes and, where it is accepted, acts as the EOS token whose data bits are 0. -/
def Obligations.EosDataBitsAreIgnored : Prop :=
  (∀ (p : Phase) (d : Byte),
      decode (keyOf p (.inp { eos := true, data := d })) = decode (keyOf p (.inp { eos := true, data := 0#8 })))
    ∧ ∀ (s : State) (d : Byte) (rest : List Txn), inReady s = true →
      step { s with pending := .inp { eos := true, data := d } :: rest }
        = step { s with pending := .inp { eos := true, data := 0#8 } :: rest }

/-- A few keys written out from the patterns of R66, and the operations they stand for. -/
def Obligations.SampleKeysDecode : Prop :=
  decode 0b0000000000001#13 = .ok (.skip 0x01#8) ∧ decode 0b0000001000001#13 = .ok .sync
    ∧ decode 0b0000111111111#13 = .ok .eosIdle ∧ decode 0b0001001000001#13 = .ok (.load 0x41#8)
    ∧ decode 0b0010011100101#13 = .ok (.check 0xE5#8) ∧ decode 0b0111111111111#13 = .ok .deliver
    ∧ decode 0b1000000000000#13 = .ok .reset ∧ decode 0b0011000000000#13 = .error .inputWhenDone

/-- The token word (R60) loses nothing, in either direction. -/
def Obligations.TokenWordRoundTrip : Prop :=
  (∀ t : Token, tokenOfWord (tokenWord t) = t) ∧ ∀ w : BitVec 9, tokenWord (tokenOfWord w) = w

/-! ## One step -/

/-- A step runs the operation that the first pending transaction decodes to in the present phase; with nothing pending the
block waits (the model's form of a wait, log entry 2). -/
def Obligations.StepRunsTheDecodedOperation : Prop :=
  (∀ (s : State) (t : Txn) (rest : List Txn) (i : Instr),
      s.pending = t :: rest → decode (keyOf s.phase t) = .ok i → step s = exec i s)
    ∧ ∀ s : State, s.pending = [] → step s = .next s

/-- An operation placed by its table word is the one the next step runs (the host's two questions; log entry 9). -/
def Obligations.PlacedWordIsRun : Prop :=
  ∀ (s : State) (k : Key) (i : Instr), decode k = .ok i →
    decodeTableWord 13 k.toNat = some i ∧ decodeTableWord 16 k.toNat = some i
      ∧ step (s.withFetchWord 13 k.toNat) = exec i (s.withFetchWord 13 k.toNat)

/-- R31: the block accepts the token offered exactly when `in_ready`, which is (phase != DONE) and (out_valid == 0). A step
under `in_ready` takes the token; without it the source keeps the token. -/
def Obligations.TokenAcceptedIffReady : Prop :=
  ∀ (s : State) (tok : Token) (rest : List Txn), s.pending = .inp tok :: rest →
    (inReady s = true ↔ s.phase ≠ .done ∧ s.outValid = false)
      ∧ (inReady s = true → ∃ t, step s = .next t ∧ t.pending = rest)
      ∧ (inReady s = false → ∀ t, step s = .next t → t.pending = .inp tok :: rest)

/-- A transaction has no step exactly where it is not enabled (R30), and then hands nothing over. The step of the environment's list
answers there by staying, the transaction still offered, which is the model's form of R70's hold (log entry 2). -/
def Obligations.NotEnabledIsHeld : Prop :=
  (∀ (s : State) (t : Txn), txnStep s t = none ↔ enabled t s = false)
    ∧ (∀ (s : State) (t : Txn), enabled t s = false → txnOutcome s t = none)
    ∧ ∀ (s : State) (t : Txn) (rest : List Txn),
      s.pending = t :: rest → t ≠ .reserved → enabled t s = false → step s = .next s

/-- An operation run outside its enabling condition changes nothing (log entries 2 and 10). -/
def Obligations.OperationOutsideItsPhaseIsHeld : Prop :=
  (∀ (s : State) (b : Byte), s.phase ≠ .hunt ∨ s.outValid = true ∨ b = 0x41#8 → exec (.skip b) s = .next s)
    ∧ (∀ s : State, s.phase ≠ .hunt ∨ s.outValid = true → exec .sync s = .next s ∧ exec .eosIdle s = .next s)
    ∧ (∀ (s : State) (b : Byte), s.phase ≠ .body ∨ s.outValid = true →
        exec (.load b) s = .next s ∧ exec .eosBody s = .next s)
    ∧ (∀ (s : State) (b : Byte), s.phase ≠ .check ∨ s.outValid = true →
        exec (.check b) s = .next s ∧ exec .eosCheck s = .next s)
    ∧ ∀ s : State, s.outValid = false → exec .deliver s = .next s

/-! ## What each operation does -/

/-- R80: SKIP consumes the token and changes nothing else, for every byte but the sentinel. -/
def Obligations.SkipDiscardsTheByte : Prop :=
  ∀ (s : State) (b : Byte), s.phase = .hunt → s.outValid = false → b ≠ 0x41#8 →
    exec (.skip b) s = .next { s with pending := s.pending.tail } ∧ inReady s = true

/-- R81: SYNC consumes the token and opens a frame: BODY, cnt 0, crc 0x00; buf and everything else stay; `in_ready` stays 1. -/
def Obligations.SyncOpensAFrame : Prop :=
  ∀ s : State, s.phase = .hunt → s.outValid = false →
    ∃ t, exec .sync s = .next t ∧ inReady t = true
      ∧ t = { s with pending := s.pending.tail, phase := .body, cnt := 0#5, crc := 0x00#8 }

/-- R82, R91, R104: the three EOS operations consume the token and lead to DONE; cnt, crc, buf and everything else stay, no
outcome is emitted, `done` becomes 1 and `in_ready` 0. -/
def Obligations.EndOfStreamEndsTheSession : Prop :=
  ∀ (s : State) (i : Instr), s.outValid = false →
    (s.phase = .hunt ∧ i = .eosIdle ∨ s.phase = .body ∧ i = .eosBody ∨ s.phase = .check ∧ i = .eosCheck) →
    ∃ t, exec i s = .next t ∧ done t = true ∧ inReady t = false
      ∧ t = { s with pending := s.pending.tail, phase := .done }

/-- R90: LOAD consumes the token, writes its byte at buf[cnt] and no other, folds it into the CRC, counts it, and after the
24th data byte goes to CHECK; it emits nothing. -/
def Obligations.LoadCapturesTheByte : Prop :=
  ∀ (s : State) (b : Byte), s.phase = .body → s.outValid = false → s.cnt.toNat ≤ 23 →
    ∃ t, exec (.load b) s = .next t
      ∧ memRead t.buf s.cnt.toNat = b ∧ (∀ i, i ≠ s.cnt.toNat → memRead t.buf i = memRead s.buf i)
      ∧ t.crc = crc8Step s.crc b ∧ t.cnt.toNat = s.cnt.toNat + 1
      ∧ t.phase = (if s.cnt = 23#5 then .check else .body)
      ∧ t.outValid = false ∧ inReady t = true ∧ t.outKind = s.outKind ∧ t.pending = s.pending.tail
      ∧ t.delivered = s.delivered ∧ t.freeCount = s.freeCount

/-- Where `cnt` points outside the 24 bytes of buf, which it does in no state meeting the invariant (R21), LOAD still completes,
as R130 asks: no byte of buf is written, and the token, the CRC and the counter (modulo 32) go as always. That no byte is
written is the model's choice (log entry 8). -/
def Obligations.LoadOutsideTheBufferWritesNothing : Prop :=
  ∀ (s : State) (b : Byte), s.phase = .body → s.outValid = false → 24 ≤ s.cnt.toNat →
    exec (.load b) s
      = .next { s with pending := s.pending.tail, crc := crc8Step s.crc b, cnt := s.cnt + 1#5 }

/-- R103: CHECK consumes the token and holds RECORD when the byte equals crc and CORRUPT when it does not; the phase is HUNT,
cnt 0, crc and buf keep their values, and no token is accepted until the outcome is taken. -/
def Obligations.CheckHoldsTheOutcome : Prop :=
  ∀ (s : State) (c : Byte), s.phase = .check → s.outValid = false →
    ∃ t, exec (.check c) s = .next t
      ∧ t = { s with pending := s.pending.tail, phase := .hunt, cnt := 0#5, outValid := true,
                     outKind := if c = s.crc then .record else .corrupt }
      ∧ inReady t = false ∧ (c = s.crc → outData t = some (bufWord s.buf))

/-- R120: DELIVER hands the sink the Record unpacked from buf, or CORRUPT with no data, and clears out_valid; everything else
stays; in HUNT, where the invariant puts a held outcome, `in_ready` becomes 1. -/
def Obligations.DeliverHandsOverTheOutcome : Prop :=
  ∀ s : State, s.outValid = true →
    ∃ t, exec .deliver s = .next t
      ∧ t = { s with
        pending := s.pending.tail, outValid := false,
        delivered := s.delivered ++ [match s.outKind with
          | .record => FrameOutcome.record (unpack (memRead s.buf))
          | .corrupt => FrameOutcome.corrupt] }
      ∧ (s.phase = .hunt → inReady t = true)

/-- RESET, from every state, leads to HUNT with cnt 0, crc 0x00 and out_valid 0; `done` is 0 and `in_ready` 1 (70, section 1).
Nothing is said of out_kind. That buf stays is the model's reading (log entry 7), and that the list of what the sink has taken
stays is the model's choice (log entry 3). -/
def Obligations.ResetStartsASession : Prop :=
  ∀ s : State, ∃ (k : OutKind) (n : Nat) (t : State), exec .reset s = .next t
    ∧ t = { s with pending := s.pending.tail, phase := .hunt, cnt := 0#5, crc := 0x00#8, outValid := false,
                   outKind := k, freeCount := n }
    ∧ done t = false ∧ inReady t = true

/-! ## Frames: what stays unchanged whenever an operation answers a next state -/

/-- Only LOAD reaches buf for writing (20, section 1): every byte reads as before after any other operation. Of RESET, after which
the spec leaves buf unspecified, this is the model's reading (log entry 7). -/
def Obligations.OnlyLoadWritesTheBuffer : Prop :=
  ∀ (s t : State) (i : Instr), (∀ b, i ≠ .load b) → exec i s = .next t →
    ∀ a, memRead t.buf a = memRead s.buf a

/-- LOAD's frame: the byte at its index apart, every byte of buf reads as before; the flags, what the sink has taken and the
free values drawn stay. -/
def Obligations.LoadFrame : Prop :=
  ∀ (s t : State) (b : Byte), exec (.load b) s = .next t →
    (∀ a, loadIndex s = a → ∀ x, x ≠ a → memRead t.buf x = memRead s.buf x)
      ∧ t.outValid = s.outValid ∧ t.outKind = s.outKind ∧ t.delivered = s.delivered ∧ t.freeCount = s.freeCount

/-- The frame of SKIP and of the three EOS operations: nothing changes but the transactions offered and, for EOS, the phase. -/
def Obligations.SkipAndEosFrame : Prop :=
  ∀ (s t : State) (i : Instr), (∃ b, i = .skip b) ∨ i = .eosIdle ∨ i = .eosBody ∨ i = .eosCheck →
    exec i s = .next t →
    t.cnt = s.cnt ∧ t.crc = s.crc ∧ t.outValid = s.outValid ∧ t.outKind = s.outKind
      ∧ t.delivered = s.delivered ∧ t.freeCount = s.freeCount ∧ ((∃ b, i = .skip b) → t.phase = s.phase)
      ∧ ∀ a, memRead t.buf a = memRead s.buf a

/-- The frame of SYNC: the flags, what the sink has taken, the free values drawn and every byte of buf stay. -/
def Obligations.SyncFrame : Prop :=
  ∀ s t : State, exec .sync s = .next t →
    t.outValid = s.outValid ∧ t.outKind = s.outKind ∧ t.delivered = s.delivered ∧ t.freeCount = s.freeCount
      ∧ ∀ a, memRead t.buf a = memRead s.buf a

/-- The frame of CHECK: crc, what the sink has taken, the free values drawn and every byte of buf stay. -/
def Obligations.CheckFrame : Prop :=
  ∀ (s t : State) (c : Byte), exec (.check c) s = .next t →
    t.crc = s.crc ∧ t.delivered = s.delivered ∧ t.freeCount = s.freeCount ∧ ∀ a, memRead t.buf a = memRead s.buf a

/-- The frame of DELIVER: phase, cnt, crc, out_kind, the free values drawn and every byte of buf stay. -/
def Obligations.DeliverFrame : Prop :=
  ∀ s t : State, exec .deliver s = .next t →
    t.phase = s.phase ∧ t.cnt = s.cnt ∧ t.crc = s.crc ∧ t.outKind = s.outKind ∧ t.freeCount = s.freeCount
      ∧ ∀ a, memRead t.buf a = memRead s.buf a

/-- The frame of RESET: what the sink has taken and every byte of buf stay (R150: buf unchanged; log entry 7). -/
def Obligations.ResetFrame : Prop :=
  ∀ s t : State, exec .reset s = .next t →
    t.delivered = s.delivered ∧ ∀ a, memRead t.buf a = memRead s.buf a

/-! ## The output port and the Record -/

/-- R32: while a RECORD is held `out_data` is the 24 bytes of buf, byte i in bits 191-8i : 184-8i. Of a CORRUPT outcome it is no
part, and nothing is said of it. -/
def Obligations.OutDataIsTheBuffer : Prop :=
  ∀ s : State, s.outValid = true → s.outKind = .record →
    ∃ w, outData s = some w ∧ ∀ i, i < 24 → w.extractLsb' (184 - 8 * i) 8 = memRead s.buf i

/-- R64: the fields of the Record are the slices of `out_data`: f0 is bits 191:160, and field k, for k = 1..10, is bits
16*(10-k)+15 : 16*(10-k). -/
def Obligations.FieldsAreSlicesOfOutData : Prop :=
  ∀ m : Memory,
    recordList (unpack (memRead m))
      = (((bufWord m).extractLsb' 160 32).toNat : Int)
        :: (List.range 10).map fun j => ((bufWord m).extractLsb' (16 * (10 - (j + 1))) 16).toInt

/-- R43: the fields are big-endian, f0 unsigned and the others two's complement, in plain arithmetic on the 24 bytes. -/
def Obligations.FieldsAreBigEndian : Prop :=
  ∀ d : Nat → Byte,
    (unpack d).f0 = (d 0).toNat * 2 ^ 24 + (d 1).toNat * 2 ^ 16 + (d 2).toNat * 2 ^ 8 + (d 3).toNat
      ∧ ∀ k, 1 ≤ k → k ≤ 10 →
        (recordList (unpack d))[k]? = some (
          if (d (2 * k + 2)).toNat * 256 + (d (2 * k + 3)).toNat < 0x8000
          then (((d (2 * k + 2)).toNat * 256 + (d (2 * k + 3)).toNat : Nat) : Int)
          else (((d (2 * k + 2)).toNat * 256 + (d (2 * k + 3)).toNat : Nat) : Int) - 0x10000)

/-- R121: Unpack gives eleven integers, f0 in 0..4294967295 and the others in -32768..32767, for every 24 bytes. -/
def Obligations.UnpackedFieldsAreInRange : Prop :=
  ∀ d : Nat → Byte,
    (recordList (unpack d)).length = 11 ∧ (unpack d).f0 ≤ 4294967295
      ∧ ∀ k v, 1 ≤ k → (recordList (unpack d))[k]? = some v → -32768 ≤ v ∧ v ≤ 32767

/-- The bytes of a Record in range (R75) are 24, and unpacking them (R121) gives the Record back. -/
def Obligations.UnpackOfRecordBytes : Prop :=
  ∀ r : Record, recordInRange r = true →
    (recordBytes r).length = 24 ∧ unpack (fun i => (recordBytes r).getD i 0#8) = r

/-- The output word of R63: its top bit is the kind; while a RECORD is held the rest is buf, and while CORRUPT is held every
rest is allowed. -/
def Obligations.OutputWordCarriesKindAndData : Prop :=
  ∀ (s : State) (d : DataWord), s.outValid = true →
    (outWordAllowed s (0#1 ++ d) = true ↔ s.outKind = .record ∧ d = bufWord s.buf)
      ∧ (outWordAllowed s (1#1 ++ d) = true ↔ s.outKind = .corrupt)

/-! ## The CRC -/

/-- The step of the CRC is the remainder of (r + b) * x^8 by x^8 + x^2 + x + 1 over GF(2): some multiple of 0x107 makes up
the difference. R100 gives both forms and marks them general knowledge (log entry 12). -/
def Obligations.CrcStepIsPolynomialRemainder : Prop :=
  ∀ r b : Byte, ∃ q : Byte,
    ((r ^^^ b).setWidth 16 <<< 8)
      = (List.range 8).foldl (fun acc i => if q.getLsbD i then acc ^^^ (0x107#16 <<< i) else acc)
          ((crc8Step r b).setWidth 16)

/-- The step of the CRC is linear, and depends on register and byte only through their exclusive-or (R100, R106). -/
def Obligations.CrcStepIsLinear : Prop :=
  (∀ r r' b b' : Byte, crc8Step (r ^^^ r') (b ^^^ b') = crc8Step r b ^^^ crc8Step r' b')
    ∧ ∀ r b : Byte, crc8Step r b = crc8Step 0#8 (r ^^^ b)

/-- The residue law derived in R105: folding in the checksum byte gives zero exactly when it matches. -/
def Obligations.CrcResidue : Prop :=
  (∀ r c : Byte, crc8Step r c = 0#8 ↔ c = r)
    ∧ ∀ (m : List Byte) (c : Byte), crc8 (m ++ [c]) = 0#8 ↔ c = crc8 m

/-! ## Reset and the invariants -/

/-- R151: the state after reset, wherever the spec gives a value: HUNT, cnt 0, crc 0x00, out_valid 0, in_ready 1, done 0. -/
def Obligations.ResetState : Prop :=
  State.reset.phase = .hunt ∧ State.reset.cnt = 0#5 ∧ State.reset.crc = 0x00#8 ∧ State.reset.outValid = false
    ∧ inReady State.reset = true ∧ done State.reset = false

/-- The invariants of R34 hold at the reset state. -/
def Obligations.InvariantAtReset : Prop := BlockInv State.reset

/-- The invariants of R34, in the form of `BlockInv`, are kept by every step. -/
def Obligations.InvariantKeptByEveryStep : Prop :=
  ∀ s t : State, BlockInv s → step s = .next t → BlockInv t

/-- The canonical form of buf is kept by every step from every state. -/
def Obligations.BufferFormKeptByEveryStep : Prop :=
  ∀ s t : State, memWf s.buf = true → step s = .next t → memWf t.buf = true

/-- No input raises a fault (derived from 60, section 1, and 30, section 3). From every state, reached or not, and whatever is
offered, a step answers a next state; the one exception is a refusal of the reserved kind, which the environment cannot offer.
For a transaction that is not enabled, or with none offered, the spec gives no step (R30, R130): that the model then answers the
unchanged state as a next state is its own choice (log entry 2). -/
def Obligations.NoInputRaisesAFault : Prop :=
  ∀ s : State,
    (∃ t, step s = .next t) ∨ (step s = .refused .reservedKind ∧ ∃ rest, s.pending = .reserved :: rest)

/-! ## Rules of the whole machine -/

/-- R27: only CHECK sets out_valid and only DELIVER and RESET clear it; out_kind changes only where CHECK writes it or RESET leaves
it unspecified. -/
def Obligations.OnlyCheckEmitsOnlyTakeAndResetClear : Prop :=
  ∀ s t : State, step s = .next t →
    (s.outValid = false → t.outValid = true →
        s.phase = .check ∧ ∃ c rest, s.pending = .inp { eos := false, data := c } :: rest)
      ∧ (s.outValid = true → t.outValid = false → ∃ rest, s.pending = .out :: rest ∨ s.pending = .reset :: rest)
      ∧ (t.outKind ≠ s.outKind →
          (s.phase = .check ∧ ∃ c rest, s.pending = .inp { eos := false, data := c } :: rest)
            ∨ ∃ rest, s.pending = .reset :: rest)

/-- R155: in DONE no token is accepted, and only a RESET transaction leaves it. -/
def Obligations.OnlyResetLeavesDone : Prop :=
  ∀ s t : State, s.phase = .done → step s = .next t →
    (t.phase ≠ .done → ∃ rest, s.pending = .reset :: rest)
      ∧ ∀ tok rest, s.pending = .inp tok :: rest → t.pending = s.pending

/-- Outcomes reach the sink one at a time, in order, only by OUT while one is held, and none is withdrawn (R51, R123). The list
of what the sink has taken is the model's own field (log entry 3). -/
def Obligations.OutcomesAreDeliveredInOrder : Prop :=
  ∀ s t : State, step s = .next t →
    t.delivered = s.delivered
      ∨ (s.outValid = true ∧ t.outValid = false ∧ (∃ rest, s.pending = .out :: rest)
          ∧ t.delivered = s.delivered ++ [heldOutcome s])

/-- While an outcome is held neither buf nor, until it is given up, its kind can change; the sink never sees two frames mixed
(20, section 3). That buf also stays under the RESET that gives the outcome up is the model's reading (log entry 7). -/
def Obligations.HeldOutcomeIsStable : Prop :=
  ∀ s t : State, s.outValid = true → step s = .next t →
    t.buf = s.buf ∧ (t.outValid = true → t.outKind = s.outKind ∧ heldOutcome t = heldOutcome s ∧ outData t = outData s)

/-- R49: a token once consumed is never offered again, and only a transaction that is enabled is consumed. In the form of R30: every
enabled transaction is a step, which leaves to the environment what it has still to offer, and what the sink has taken grows by
the outcome handed over and by nothing else (the list of it is the model's own field, log entry 3); and the step of the
environment's list is that step exactly when the first transaction is enabled. -/
def Obligations.OnlyEnabledTransactionsAreConsumed : Prop :=
  (∀ (s t : State) (h : Txn) (rest : List Txn), s.pending = h :: rest → step s = .next t →
      t.pending = if enabled h s then rest else h :: rest)
    ∧ (∀ (s : State) (h : Txn), enabled h s = true →
        ∃ t, txnStep s h = some t ∧ t.pending = s.pending ∧ t.delivered = s.delivered ++ (txnOutcome s h).toList)
    ∧ ∀ (s t : State) (h : Txn) (rest : List Txn), s.pending = h :: rest →
      (txnStep { s with pending := rest } h = some t ↔ enabled h s = true ∧ step s = .next t)

/-- R161: inside a frame 0x41 is data: in BODY its token is a LOAD and in CHECK a CHECK, never a SYNC. -/
def Obligations.SentinelInsideAFrameIsData : Prop :=
  ∀ (s : State) (rest : List Txn), s.pending = .inp { eos := false, data := 0x41#8 } :: rest →
    (s.phase = .body → step s = exec (.load 0x41#8) s) ∧ (s.phase = .check → step s = exec (.check 0x41#8) s)

/-- The ports (R28, R29) bring about exactly the transactions that are enabled and presented: with `rst` a RESET, whatever else the
sample carries (R133), so that the token stays with the source and a held outcome is dropped, not delivered (log entry 16);
without it OUT where an outcome is held and `out_ready` is 1, and IN where a token is presented and `in_ready` is 1; and each only
then. The transaction brought about is the one step the block takes, and uses up nothing else that the environment has to offer.
Where no transaction comes about everything stays as it is (the model's form of a hold, log entry 2). -/
def Obligations.PortsRespectEnablingAndReset : Prop :=
  (∀ (p : PortIn) (s : State) (t : Txn), arbitrate p s = some t →
      enabled t s = true
        ∧ (t = .reset ∧ p.rst = true
          ∨ t = .out ∧ p.rst = false ∧ p.outReady = true
          ∨ t = .inp { eos := p.inEos, data := p.inData } ∧ p.rst = false ∧ p.inValid = true))
    ∧ (∀ (p : PortIn) (s : State) (t : Txn), arbitrate p s = some t →
        portStep p s = step { s with pending := t :: s.pending }
          ∧ ∃ u, portStep p s = .next u ∧ u.pending = s.pending)
    ∧ (∀ (p : PortIn) (s : State), arbitrate p s = none → portStep p s = .next s)
    ∧ (∀ (p : PortIn) (s : State), p.rst = true → arbitrate p s = some .reset)
    ∧ (∀ (p : PortIn) (s : State), p.rst = false → p.outReady = true → s.outValid = true → arbitrate p s = some .out)
    ∧ (∀ (p : PortIn) (s : State), p.rst = false → p.inValid = true → inReady s = true →
        arbitrate p s = some (.inp { eos := p.inEos, data := p.inData }))
    ∧ ∀ (p : PortIn) (s : State), p.rst = true →
      ∃ t, portStep p s = .next t ∧ t.phase = .hunt ∧ t.outValid = false ∧ t.pending = s.pending
        ∧ t.delivered = s.delivered

/-! ## Laws of several steps -/

/-- The resynchronization law derived in R83: a run of bytes other than 0x41, of any length, and then 0x41, is skipped and
opens a frame, with no outcome on the way. -/
def Obligations.Resynchronization : Prop :=
  ∀ (s : State) (noise : List Byte) (rest : List Txn), s.phase = .hunt → s.outValid = false →
    (∀ b ∈ noise, b ≠ 0x41#8) → s.pending = bytesLines noise ++ lineB 0x41#8 :: rest →
    runsTo (noise.length + 1) s { s with pending := rest, phase := .body, cnt := 0#5, crc := 0x00#8 }

/-- The capture law derived in R92, for every number of bytes up to 24, with the incremental CRC of R102: from BODY with cnt 0
and crc 0x00, k tokens leave the bytes in buf and their CRC in crc, and the phase is CHECK exactly when k is 24. -/
def Obligations.PayloadCapture : Prop :=
  ∀ (s : State) (bs : List Byte) (rest : List Txn), s.phase = .body → s.outValid = false → s.cnt = 0#5 →
    s.crc = 0x00#8 → bs.length ≤ 24 → s.pending = bytesLines bs ++ rest →
    ∃ t, runsTo bs.length s t ∧ t.phase = (if bs.length = 24 then .check else .body)
      ∧ t.cnt.toNat = bs.length ∧ t.crc = crc8 bs ∧ (∀ i b, bs[i]? = some b → memRead t.buf i = b)
      ∧ t.outValid = false ∧ t.pending = rest ∧ t.delivered = s.delivered

/-- Any 24 bytes and a checksum byte after a sentinel give one outcome, taken in the 27th transaction: the Record they unpack
to when the byte is their CRC, and CORRUPT when it is not; and the block hunts again. Real or false frame, the rules are the
same (R160, R103). -/
def Obligations.EveryFrameIsJudgedByItsCrc : Prop :=
  ∀ (s : State) (bs : List Byte) (c : Byte) (rest : List Txn), s.phase = .hunt → s.outValid = false → bs.length = 24 →
    s.pending = lineB 0x41#8 :: (bytesLines bs ++ lineB c :: lineTake :: rest) →
    ∃ t, runsTo 27 s t
      ∧ t.delivered = s.delivered ++ [if c = crc8 bs then .record (unpack fun i => bs.getD i 0#8) else .corrupt]
      ∧ t.phase = .hunt ∧ t.cnt = 0#5 ∧ t.outValid = false ∧ t.pending = rest

/-- The round-trip law derived in R122: the 26 tokens of a FRAME and a TAKE give the sink exactly the Record framed. -/
def Obligations.FrameRoundTrip : Prop :=
  ∀ (s : State) (r : Record) (rest : List Txn), recordInRange r = true → s.phase = .hunt → s.outValid = false →
    s.pending = frameLines r ++ lineTake :: rest →
    ∃ t, runsTo 27 s t ∧ t.delivered = s.delivered ++ [.record r]
      ∧ t.phase = .hunt ∧ t.cnt = 0#5 ∧ t.outValid = false ∧ t.pending = rest

/-- A frame whose checksum byte is exclusive-ored with any non-zero value gives CORRUPT, and the next frame is decoded as if
nothing had happened (the corner case of R103; the FRAMEX of R75). -/
def Obligations.CorruptFrameThenGoodFrame : Prop :=
  ∀ (s : State) (m : Byte) (r r' : Record) (rest : List Txn), m ≠ 0#8 → recordInRange r' = true → s.phase = .hunt →
    s.outValid = false → s.pending = frameXLines m r ++ lineTake :: (frameLines r' ++ lineTake :: rest) →
    ∃ t, runsTo 54 s t ∧ t.delivered = s.delivered ++ [.corrupt, .record r']
      ∧ t.phase = .hunt ∧ t.cnt = 0#5 ∧ t.outValid = false ∧ t.pending = rest

/-- The error-detection law derived in R106: a frame with one of the bits of its 25 payload bytes inverted gives CORRUPT. -/
def Obligations.SingleBitErrorGivesCorrupt : Prop :=
  ∀ (s : State) (bs : List Byte) (i j : Nat) (rest : List Txn), bs.length = 24 → i < 25 → j < 8 → s.phase = .hunt →
    s.outValid = false →
    s.pending = lineB 0x41#8
      :: (bytesLines ((bs ++ [crc8 bs]).modify i fun b => b ^^^ (1#8 <<< j)) ++ lineTake :: rest) →
    ∃ t, runsTo 27 s t ∧ t.delivered = s.delivered ++ [.corrupt] ∧ t.phase = .hunt ∧ t.outValid = false
      ∧ t.pending = rest

/-- A frame cut by end of stream after any number of its 25 payload bytes short of all gives no outcome, and the session has
ended (R164; the PART of R75). -/
def Obligations.TruncationIsSilent : Prop :=
  ∀ (s : State) (r : Record) (n : Nat) (rest : List Txn), n ≤ 24 → s.phase = .hunt → s.outValid = false →
    s.pending = partLines n r ++ lineEos :: rest →
    ∃ t, runsTo (n + 2) s t ∧ runEnded t = true ∧ t.cnt.toNat = n ∧ t.delivered = s.delivered ∧ t.pending = rest

/-- What R154 derives: the CRC register of a state in HUNT has no influence on any later outcome, signal or byte. -/
def Obligations.CrcBetweenFramesDoesNotMatter : Prop :=
  ∀ (n : Nat) (s t : State) (c : Byte), s.phase = .hunt → runsTo n s t →
    ∃ t', runsTo n { s with crc := c } t' ∧ t'.delivered = t.delivered ∧ t'.phase = t.phase ∧ t'.cnt = t.cnt
      ∧ t'.outValid = t.outValid ∧ t'.outKind = t.outKind ∧ t'.buf = t.buf ∧ t'.pending = t.pending

/-- R36: no rule reads a byte of buf before LOAD writes it in the same frame. From HUNT with nothing held, what buf contains has
no influence on any later outcome or signal. -/
def Obligations.StaleBufferNeverShows : Prop :=
  ∀ (n : Nat) (s t : State) (m : Memory), s.phase = .hunt → s.outValid = false → runsTo n s t →
    ∃ t', runsTo n { s with buf := m } t' ∧ t'.delivered = t.delivered ∧ t'.phase = t.phase ∧ t'.cnt = t.cnt
      ∧ t'.crc = t.crc ∧ t'.outValid = t.outValid ∧ t'.outKind = t.outKind ∧ t'.pending = t.pending
      ∧ outData t' = outData t

/-- Of the progress law derived in R171, that a session can decode every finite stream of bytes that ends in EOS to the end. From
every state in which the session has not ended and no outcome is held, some schedule offers exactly the stream's tokens in
order, with a TAKE for each outcome and no RESET, and runs to the end of the session. `EveryScheduleEndsTheRun` speaks of all
of them. -/
def Obligations.FiniteStreamIsDecoded : Prop :=
  ∀ (s : State) (stream : List Byte), s.phase ≠ .done → s.outValid = false →
    ∃ (schedule : List Txn) (t : State),
      schedule.filter (fun x => decide (x ≠ .out)) = bytesLines stream ++ [lineEos]
        ∧ runsTo schedule.length { s with pending := schedule } t
        ∧ runEnded t = true ∧ t.pending = []
        ∧ t.delivered.length = s.delivered.length + (schedule.filter fun x => decide (x = .out)).length

/-- Of the progress law derived in R171, that however the environment schedules a finite stream of bytes that ends in EOS, the
session ends. Take every schedule that offers exactly the stream's tokens in order, with TAKEs anywhere among them and no
RESET, and that is consumed whole, one transaction a step, as it is when each token is accepted and each outcome taken: its run
has ended, and each of its OUT transactions has handed over one outcome. -/
def Obligations.EveryScheduleEndsTheRun : Prop :=
  ∀ (s t : State) (stream : List Byte) (schedule : List Txn), s.phase ≠ .done → s.outValid = false →
    schedule.filter (fun x => decide (x ≠ .out)) = bytesLines stream ++ [lineEos] →
    runsTo schedule.length { s with pending := schedule } t → t.pending = [] →
    runEnded t = true
      ∧ t.delivered.length = s.delivered.length + (schedule.filter fun x => decide (x = .out)).length
end

