-- ==== Sys2Proof/Laws/Crc.lean ====
section
/-! SUPPORT. The CRC without its reflections, and as a fold that grows at the end. -/

namespace Sys2Proof.Machine

@[simp] theorem crcIn_eq (b : Byte) : crcIn b = b := rfl

@[simp] theorem crcOut_eq (r : CrcReg) : crcOut r = r := by
  simp [crcOut, Config.crcRefOut, Config.crcXorOut]

@[simp] theorem crc8_nil : crc8 [] = 0#Config.crcWidth := by
  simp [crc8, Config.crcInit]

/-- One more byte is one more step of the register (R101). -/
theorem crc8_append_one (m : List Byte) (b : Byte) : crc8 (m ++ [b]) = crc8Step (crc8 m) b := by
  simp [crc8]

end Sys2Proof.Machine
end

