-- ==== Sys2Proof/Laws/Decode.lean ====
section
/-! SUPPORT. The fields of a key that has just been put together, and the decoder on each kind of transaction. -/

namespace Sys2Proof

@[simp] theorem keyKind_mkKey (kind phase : BitVec 2) (eos : Bool) (data : Byte) :
    keyKind (mkKey kind phase eos data) = kind := by
  ext i hi
  simp only [keyKind, mkKey, BitVec.getElem_extractLsb', BitVec.getLsbD_append]
  have h1 : ¬ 11 + i < 8 := by omega
  have h2 : ¬ 11 + i - 8 < 1 := by omega
  have h3 : ¬ 11 + i - 8 - 1 < 2 := by omega
  simp [h1, h2, h3, show 11 + i - 8 - 1 - 2 = i by omega, BitVec.getLsbD_eq_getElem hi]

@[simp] theorem keyPhase_mkKey (kind phase : BitVec 2) (eos : Bool) (data : Byte) :
    keyPhase (mkKey kind phase eos data) = phaseOfBits phase := by
  unfold keyPhase
  congr 1
  ext i hi
  simp only [mkKey, BitVec.getElem_extractLsb', BitVec.getLsbD_append]
  have h1 : ¬ 9 + i < 8 := by omega
  have h2 : ¬ 9 + i - 8 < 1 := by omega
  simp [h1, h2, show 9 + i - 8 - 1 = i by omega, BitVec.getLsbD_eq_getElem hi]
  omega

@[simp] theorem keyEos_mkKey (kind phase : BitVec 2) (eos : Bool) (data : Byte) :
    keyEos (mkKey kind phase eos data) = eos := by
  simp only [keyEos, mkKey, BitVec.getLsbD_append]
  cases eos <;> simp

@[simp] theorem keyData_mkKey (kind phase : BitVec 2) (eos : Bool) (data : Byte) :
    keyData (mkKey kind phase eos data) = data := by
  ext i hi
  simp only [keyData, mkKey, BitVec.getElem_extractLsb', BitVec.getLsbD_append]
  simp [hi]

@[simp] theorem phaseOfBits_phaseBits (p : Phase) : phaseOfBits (phaseBits p) = p := by
  cases p <;> rfl

/-- An IN transaction decodes by phase and end-of-stream mark (R66). -/
theorem decode_keyOf_inp (p : Phase) (tok : Token) :
    decode (keyOf p (.inp tok)) = if tok.eos then decodeEos p else decodeData p tok.data := by
  simp [decode, keyOf]

/-- An OUT transaction is DELIVER in every phase (R66). -/
@[simp] theorem decode_keyOf_out (p : Phase) : decode (keyOf p .out) = .ok .deliver := by
  simp [decode, keyOf, kindIn, kindOut]

/-- A RESET transaction is RESET in every phase (R66). -/
@[simp] theorem decode_keyOf_reset (p : Phase) : decode (keyOf p .reset) = .ok .reset := by
  simp [decode, keyOf, kindIn, kindOut, kindReset]

/-- The reserved kind decodes to nothing in every phase (R69). -/
@[simp] theorem decode_keyOf_reserved (p : Phase) : decode (keyOf p .reserved) = .error .reservedKind := by
  simp [decode, keyOf, kindIn, kindOut, kindReset, kindReserved]

end Sys2Proof
end

