-- ==== Sys2Proof/Laws/Params.lean ====
section
/-! SUPPORT. The values of the constants of R7 as plain numbers, for arithmetic on indexes and widths. -/

namespace Sys2Proof.Config

@[simp] theorem tokenDataWidth_eq : tokenDataWidth = 8 := by decide

@[simp] theorem cntWidth_eq : cntWidth = 5 := by decide

@[simp] theorem crcWidth_eq : crcWidth = 8 := by decide

@[simp] theorem nS16_eq : nS16 = 10 := by decide

@[simp] theorem dataLen_eq : dataLen = 24 := by decide

@[simp] theorem payloadLen_eq : payloadLen = 25 := by decide

@[simp] theorem frameLen_eq : frameLen = 26 := by decide

end Sys2Proof.Config
end

