-- ==== Sys2Proof/Laws/Memory.lean ====
section
/-! SUPPORT. The laws of the payload buffer: what a read gives after a write, that every operation keeps the canonical form, and that
the form makes equal buffers equal data. -/

namespace Sys2Proof.Machine

@[simp] theorem memRead?_nil (i : Nat) : memRead? [] i = none := rfl

theorem memRead?_memInsert_same (m : Memory) (i : Nat) (b : Byte) : memRead? (memInsert m i b) i = some b := by
  induction m with
  | nil => simp [memInsert, memRead?]
  | cons e m ih =>
    obtain ⟨a, c⟩ := e
    unfold memInsert
    split
    · simp [memRead?]
    · split
      · simp [memRead?]
      · rename_i h
        simpa [memRead?, Ne.symm h] using ih

theorem memRead?_memInsert_ne (m : Memory) {i j : Nat} (b : Byte) (h : j ≠ i) :
    memRead? (memInsert m i b) j = memRead? m j := by
  induction m with
  | nil => simp [memInsert, memRead?, Ne.symm h]
  | cons e m ih =>
    obtain ⟨a, c⟩ := e
    unfold memInsert
    split
    · simp [memRead?, Ne.symm h]
    · split
      · rename_i h'
        subst h'
        simp [memRead?, Ne.symm h]
      · simp [memRead?, ih]

/-- A write outside buf reaches no byte (R40). -/
theorem memWrite_outside (m : Memory) {i : Nat} (b : Byte) (hi : Config.dataLen ≤ i) : memWrite m i b = m :=
  if_neg (Nat.not_lt.2 hi)

/-- A read at the index just written gives the byte written. -/
theorem memRead?_memWrite_same (m : Memory) {i : Nat} (b : Byte) (hi : i < Config.dataLen) :
    memRead? (memWrite m i b) i = some b := by
  rw [memWrite, if_pos hi, memRead?_memInsert_same]

/-- A write leaves every other index alone. -/
theorem memRead?_memWrite_ne (m : Memory) {i j : Nat} (b : Byte) (h : j ≠ i) :
    memRead? (memWrite m i b) j = memRead? m j := by
  unfold memWrite
  split
  · exact memRead?_memInsert_ne m b h
  · rfl

theorem memRead_memWrite_same (m : Memory) {i : Nat} (b : Byte) (hi : i < Config.dataLen) :
    memRead (memWrite m i b) i = b := by
  simp [memRead, memRead?_memWrite_same m b hi]

theorem memRead_memWrite_ne (m : Memory) {i j : Nat} (b : Byte) (h : j ≠ i) :
    memRead (memWrite m i b) j = memRead m j := by
  simp [memRead, memRead?_memWrite_ne m b h]

/-- A lower bound on the indexes can be relaxed. -/
theorem memRisingFrom_mono {lo lo' : Nat} (m : Memory) (h : lo' ≤ lo) (hm : memRisingFrom lo m = true) :
    memRisingFrom lo' m = true := by
  cases m with
  | nil => rfl
  | cons e m =>
    obtain ⟨a, b⟩ := e
    simp only [memRisingFrom, Bool.and_eq_true, decide_eq_true_eq] at hm ⊢
    exact ⟨⟨by omega, hm.1.2⟩, hm.2⟩

theorem memRisingFrom_memInsert {lo i : Nat} (m : Memory) (b : Byte) (hlo : lo ≤ i) (hi : i < Config.dataLen)
    (hm : memRisingFrom lo m = true) : memRisingFrom lo (memInsert m i b) = true := by
  induction m generalizing lo with
  | nil => simp only [memInsert, memRisingFrom, hlo, hi, decide_true, Bool.and_self]
  | cons e m ih =>
    obtain ⟨a, c⟩ := e
    simp only [memRisingFrom, Bool.and_eq_true, decide_eq_true_eq] at hm
    obtain ⟨⟨h1, h2⟩, h3⟩ := hm
    unfold memInsert
    split
    · rename_i h
      simp [memRisingFrom, hlo, hi, h2, h3, h, -Config.dataLen_eq]
    · split
      · rename_i h
        subst h
        simp [memRisingFrom, hlo, hi, h3, -Config.dataLen_eq]
      · simp [memRisingFrom, h1, h2, ih (lo := a + 1) (by omega) h3, -Config.dataLen_eq]

/-- Every write keeps the canonical form. -/
theorem memWf_memWrite {m : Memory} (i : Nat) (b : Byte) (hm : memWf m = true) : memWf (memWrite m i b) = true := by
  unfold memWrite
  split
  · rename_i hi
    exact memRisingFrom_memInsert m b (Nat.zero_le i) hi hm
  · exact hm

@[simp] theorem memWf_nil : memWf [] = true := rfl

/-- Below its lower bound a canonical buffer lists nothing. -/
theorem memRead?_below {lo i : Nat} {m : Memory} (hm : memRisingFrom lo m = true) (h : i < lo) :
    memRead? m i = none := by
  induction m generalizing lo with
  | nil => rfl
  | cons e m ih =>
    obtain ⟨a, b⟩ := e
    simp only [memRisingFrom, Bool.and_eq_true, decide_eq_true_eq] at hm
    have hne : a ≠ i := by omega
    simpa [memRead?, hne] using ih hm.2 (by omega)

theorem mem_ext_from {lo : Nat} {m m' : Memory} (hm : memRisingFrom lo m = true) (hm' : memRisingFrom lo m' = true)
    (h : ∀ i, memRead? m i = memRead? m' i) : m = m' := by
  induction m generalizing lo m' with
  | nil =>
    cases m' with
    | nil => rfl
    | cons e' m' => simpa [memRead?] using h e'.1
  | cons e m ih =>
    obtain ⟨a, b⟩ := e
    cases m' with
    | nil => simpa [memRead?] using h a
    | cons e' m' =>
      obtain ⟨a', b'⟩ := e'
      simp only [memRisingFrom, Bool.and_eq_true, decide_eq_true_eq] at hm hm'
      have low : ∀ {x y : Nat}, x < y → memRisingFrom (y + 1) m = true → memRead? m x = none :=
        fun hxy hr => memRead?_below hr (by omega)
      have low' : ∀ {x y : Nat}, x < y → memRisingFrom (y + 1) m' = true → memRead? m' x = none :=
        fun hxy hr => memRead?_below hr (by omega)
      have haa : a = a' := by
        rcases Nat.lt_trichotomy a a' with hlt | heq | hgt
        · have := h a
          simp [memRead?, Nat.ne_of_gt hlt, low' hlt hm'.2] at this
        · exact heq
        · have := h a'
          simp [memRead?, Nat.ne_of_gt hgt, low hgt hm.2] at this
      subst haa
      have hbb : b = b' := by simpa [memRead?] using h a
      subst hbb
      congr 1
      refine ih hm.2 hm'.2 fun i => ?_
      by_cases hi : a = i
      · subst hi
        rw [memRead?_below hm.2 (by omega), memRead?_below hm'.2 (by omega)]
      · simpa [memRead?, hi] using h i

/-- Two canonical buffers that read alike at every index are the same data. -/
theorem mem_ext {m m' : Memory} (hm : memWf m = true) (hm' : memWf m' = true)
    (h : ∀ i, memRead? m i = memRead? m' i) : m = m' :=
  mem_ext_from hm hm' h

@[simp] theorem memPrefix_zero (m : Memory) : memPrefix m 0 = [] := rfl

theorem memPrefix_succ (m : Memory) (n : Nat) : memPrefix m (n + 1) = memPrefix m n ++ [memRead m n] := by
  simp [memPrefix, List.range_succ]

/-- Buffers that read alike below `n` have the same first `n` bytes. -/
theorem memPrefix_congr {m m' : Memory} {n : Nat} (h : ∀ i, i < n → memRead m i = memRead m' i) :
    memPrefix m n = memPrefix m' n := by
  simpa [memPrefix] using h

/-- Writing byte `n` appends it to the first `n` bytes. -/
theorem memPrefix_memWrite (m : Memory) {n : Nat} (b : Byte) (hn : n < Config.dataLen) :
    memPrefix (memWrite m n b) (n + 1) = memPrefix m n ++ [b] := by
  rw [memPrefix_succ, memRead_memWrite_same m b hn]
  congr 1
  exact memPrefix_congr fun i hi => memRead_memWrite_ne m b (by omega)

end Sys2Proof.Machine
end

