-- ==== Sys2Proof/Laws/Word.lean ====
section
/-! SUPPORT. Slices of a concatenation that ends in a byte: what the output port's data word and the fields of a Record need. -/

namespace Sys2Proof

/-- A slice that begins above the last byte is a slice of what stands before it. -/
theorem extract_append_byte {n : Nat} (x : BitVec n) (b : BitVec 8) (k l : Nat) :
    (x ++ b : BitVec (n + 8)).extractLsb' (k + 8) l = x.extractLsb' k l := by
  ext i hi
  simp only [BitVec.getElem_extractLsb', BitVec.getLsbD_append]
  rw [if_neg (by omega)]
  congr 1
  omega

/-- The lowest eight bits are the last byte. -/
theorem extract_append_last {n : Nat} (x : BitVec n) (b : BitVec 8) :
    (x ++ b : BitVec (n + 8)).extractLsb' 0 8 = b := by
  ext i hi
  simp only [BitVec.getElem_extractLsb', BitVec.getLsbD_append]
  simp [hi]

/-- The lowest sixteen bits are the last two bytes. -/
theorem extract_append_last_two {n : Nat} (x : BitVec n) (a b : BitVec 8) :
    (x ++ a ++ b : BitVec (n + 8 + 8)).extractLsb' 0 16 = (a ++ b : BitVec (8 + 8)) := by
  apply BitVec.eq_of_getLsbD_eq
  intro i hi
  simp only [BitVec.getLsbD_extractLsb', BitVec.getLsbD_append, Nat.zero_add]
  by_cases h : i < 8
  · simp [h, hi]
  · have h' : i - 8 < 8 := by omega
    simp [h, h', hi]

end Sys2Proof
end

