-- ==== Sys2Proof/Laws/Operands.lean ====
section
/-! SUPPORT. A word of bytes and its slices; the lengths of a Record's bytes and of a frame's lines. -/

namespace Sys2Proof.Machine

theorem bytesWord_succ (d : Nat → Byte) (n : Nat) : bytesWord d (n + 1) = bytesWord d n ++ d n := rfl

/-- A slice that begins above the last byte is a slice of the bytes before it. -/
theorem bytesWord_extract_high (d : Nat → Byte) (n k l : Nat) :
    (bytesWord d (n + 1)).extractLsb' (k + 8) l = (bytesWord d n).extractLsb' k l :=
  extract_append_byte (bytesWord d n) (d n) k l

/-- The lowest eight bits are the last byte. -/
theorem bytesWord_extract_last (d : Nat → Byte) (n : Nat) : (bytesWord d (n + 1)).extractLsb' 0 8 = d n :=
  extract_append_last (bytesWord d n) (d n)

/-- The lowest sixteen bits are the last two bytes. -/
theorem bytesWord_extract_last_two (d : Nat → Byte) (n : Nat) :
    (bytesWord d (n + 2)).extractLsb' 0 16 = d n ++ d (n + 1) :=
  extract_append_last_two (bytesWord d n) (d n) (d (n + 1))

/-- Words agree where their bytes do. -/
theorem bytesWord_congr {d d' : Nat → Byte} {n : Nat} (h : ∀ i, i < n → d i = d' i) : bytesWord d n = bytesWord d' n := by
  induction n with
  | zero => rfl
  | succ n ih => rw [bytesWord_succ, bytesWord_succ, ih fun i hi => h i (by omega), h n (by omega)]

@[simp] theorem recordBytes_length (r : Record) : (recordBytes r).length = Config.dataLen := by
  simp [recordBytes, u32Bytes, s16Bytes, List.length_flatMap]

/-- A frame is `FRAME_LEN` bytes long (R8), whatever its checksum byte. -/
@[simp] theorem frameXLines_length (m : Byte) (r : Record) : (frameXLines m r).length = Config.frameLen := by
  simp [frameXLines, frameOf, bytesLines]

@[simp] theorem frameLines_length (r : Record) : (frameLines r).length = Config.frameLen := frameXLines_length _ r

/-- Every PART that R75 gives is shorter than its frame, and each is `n + 1` lines long. -/
theorem partLines_length {n : Nat} (h : partInRange n = true) (r : Record) : (partLines n r).length = n + 1 := by
  simp [partInRange] at h
  simp [partLines]
  omega

/-- Beyond the range of R75 the model's PART is the whole FRAME (log entry 14). -/
theorem partLines_whole {n : Nat} (h : partInRange n = false) (r : Record) : partLines n r = frameLines r := by
  simp [partInRange] at h
  exact List.take_of_length_le (by simp; omega)

/-- With `m` = 0 the model's FRAMEX is the good FRAME (log entry 14). -/
theorem frameXLines_zero {m : Byte} (h : frameXInRange m = false) (r : Record) : frameXLines m r = frameLines r := by
  have h := not_not.mp (of_decide_eq_false h)
  subst h
  rfl

end Sys2Proof.Machine
end

