-- ==== Sys2Proof/Laws/PerInstr.lean ====
section
/-! SUPPORT. The family RowKey: the key of a well-formed operation matches the row of the operation map that bears its name, and no
other row (R66, R67). One lemma per constructor of Instr. -/

namespace Sys2Proof.Laws.RowKey

/-- The operation's key matches a row exactly when the row is its own. -/
def Statement (i : Instr) : Prop :=
  wellFormed i = true → ∀ r ∈ opRows, rowMatches (encode i) r = decide (r.mnemonic = mnemonicOf i)

/-- Each of the 256 data bytes is checked against the nine rows. -/
theorem skip : ∀ data : Byte, Statement (.skip data) := by
  intro data h
  revert data
  decide

theorem sync : Statement .sync := by
  intro _
  decide

theorem eosIdle : Statement .eosIdle := by
  intro _
  decide

theorem load : ∀ data : Byte, Statement (.load data) := by
  intro data h
  revert data
  decide

theorem eosBody : Statement .eosBody := by
  intro _
  decide

theorem check : ∀ data : Byte, Statement (.check data) := by
  intro data h
  revert data
  decide

theorem eosCheck : Statement .eosCheck := by
  intro _
  decide

theorem deliver : Statement .deliver := by
  intro _
  decide

theorem reset : Statement .reset := by
  intro _
  decide

end Sys2Proof.Laws.RowKey
end

