-- ==== Sys2Proof/Laws/State.lean ====
section
/-! SUPPORT. Each field after each named update of the state, true by rfl, so that no later proof unfolds a record update. -/

namespace Sys2Proof.Machine

/-! Taking the transaction off the list changes `pending` only. -/

@[simp] theorem consume_phase (s : State) : (consume s).phase = s.phase := rfl
@[simp] theorem consume_cnt (s : State) : (consume s).cnt = s.cnt := rfl
@[simp] theorem consume_crc (s : State) : (consume s).crc = s.crc := rfl
@[simp] theorem consume_buf (s : State) : (consume s).buf = s.buf := rfl
@[simp] theorem consume_outValid (s : State) : (consume s).outValid = s.outValid := rfl
@[simp] theorem consume_outKind (s : State) : (consume s).outKind = s.outKind := rfl
@[simp] theorem consume_pending (s : State) : (consume s).pending = s.pending.tail := rfl
@[simp] theorem consume_delivered (s : State) : (consume s).delivered = s.delivered := rfl
@[simp] theorem consume_freeCount (s : State) : (consume s).freeCount = s.freeCount := rfl

/-! Offering a transaction changes `pending` only. -/

@[simp] theorem offer_phase (t : Txn) (s : State) : (offer t s).phase = s.phase := rfl
@[simp] theorem offer_cnt (t : Txn) (s : State) : (offer t s).cnt = s.cnt := rfl
@[simp] theorem offer_crc (t : Txn) (s : State) : (offer t s).crc = s.crc := rfl
@[simp] theorem offer_buf (t : Txn) (s : State) : (offer t s).buf = s.buf := rfl
@[simp] theorem offer_outValid (t : Txn) (s : State) : (offer t s).outValid = s.outValid := rfl
@[simp] theorem offer_outKind (t : Txn) (s : State) : (offer t s).outKind = s.outKind := rfl
@[simp] theorem offer_pending (t : Txn) (s : State) : (offer t s).pending = t :: s.pending := rfl
@[simp] theorem offer_delivered (t : Txn) (s : State) : (offer t s).delivered = s.delivered := rfl
@[simp] theorem offer_freeCount (t : Txn) (s : State) : (offer t s).freeCount = s.freeCount := rfl
@[simp] theorem consume_offer (t : Txn) (s : State) : consume (offer t s) = s := rfl

/-! Ending the session changes `phase` only (R82, R91, R104). -/

@[simp] theorem endSession_phase (s : State) : (endSession s).phase = .done := rfl
@[simp] theorem endSession_cnt (s : State) : (endSession s).cnt = s.cnt := rfl
@[simp] theorem endSession_crc (s : State) : (endSession s).crc = s.crc := rfl
@[simp] theorem endSession_buf (s : State) : (endSession s).buf = s.buf := rfl
@[simp] theorem endSession_outValid (s : State) : (endSession s).outValid = s.outValid := rfl
@[simp] theorem endSession_outKind (s : State) : (endSession s).outKind = s.outKind := rfl
@[simp] theorem endSession_pending (s : State) : (endSession s).pending = s.pending := rfl
@[simp] theorem endSession_delivered (s : State) : (endSession s).delivered = s.delivered := rfl
@[simp] theorem endSession_freeCount (s : State) : (endSession s).freeCount = s.freeCount := rfl

/-! LOAD writes `buf`, `crc`, `cnt` and `phase` (R90). -/

@[simp] theorem loadByte_phase (b : Byte) (s : State) : (loadByte b s).phase = if loadIndex s = Config.dataLen - 1 then .check else s.phase := rfl
@[simp] theorem loadByte_cnt (b : Byte) (s : State) : (loadByte b s).cnt = s.cnt + 1#Config.cntWidth := rfl
@[simp] theorem loadByte_crc (b : Byte) (s : State) : (loadByte b s).crc = crc8Step s.crc b := rfl
@[simp] theorem loadByte_buf (b : Byte) (s : State) : (loadByte b s).buf = memWrite s.buf (loadIndex s) b := rfl
@[simp] theorem loadByte_outValid (b : Byte) (s : State) : (loadByte b s).outValid = s.outValid := rfl
@[simp] theorem loadByte_outKind (b : Byte) (s : State) : (loadByte b s).outKind = s.outKind := rfl
@[simp] theorem loadByte_pending (b : Byte) (s : State) : (loadByte b s).pending = s.pending := rfl
@[simp] theorem loadByte_delivered (b : Byte) (s : State) : (loadByte b s).delivered = s.delivered := rfl
@[simp] theorem loadByte_freeCount (b : Byte) (s : State) : (loadByte b s).freeCount = s.freeCount := rfl

/-! Emitting writes the two status flags (R13). -/

@[simp] theorem emit_phase (k : OutKind) (s : State) : (emit k s).phase = s.phase := rfl
@[simp] theorem emit_cnt (k : OutKind) (s : State) : (emit k s).cnt = s.cnt := rfl
@[simp] theorem emit_crc (k : OutKind) (s : State) : (emit k s).crc = s.crc := rfl
@[simp] theorem emit_buf (k : OutKind) (s : State) : (emit k s).buf = s.buf := rfl
@[simp] theorem emit_outValid (k : OutKind) (s : State) : (emit k s).outValid = true := rfl
@[simp] theorem emit_outKind (k : OutKind) (s : State) : (emit k s).outKind = k := rfl
@[simp] theorem emit_pending (k : OutKind) (s : State) : (emit k s).pending = s.pending := rfl
@[simp] theorem emit_delivered (k : OutKind) (s : State) : (emit k s).delivered = s.delivered := rfl
@[simp] theorem emit_freeCount (k : OutKind) (s : State) : (emit k s).freeCount = s.freeCount := rfl

/-! Delivering clears `out_valid` and gives the outcome to the sink (R13, R120). -/

@[simp] theorem handOver_phase (s : State) : (handOver s).phase = s.phase := rfl
@[simp] theorem handOver_cnt (s : State) : (handOver s).cnt = s.cnt := rfl
@[simp] theorem handOver_crc (s : State) : (handOver s).crc = s.crc := rfl
@[simp] theorem handOver_buf (s : State) : (handOver s).buf = s.buf := rfl
@[simp] theorem handOver_outValid (s : State) : (handOver s).outValid = false := rfl
@[simp] theorem handOver_outKind (s : State) : (handOver s).outKind = s.outKind := rfl
@[simp] theorem handOver_pending (s : State) : (handOver s).pending = s.pending := rfl
@[simp] theorem handOver_delivered (s : State) : (handOver s).delivered = s.delivered ++ [heldOutcome s] := rfl
@[simp] theorem handOver_freeCount (s : State) : (handOver s).freeCount = s.freeCount := rfl

/-! The index and the signals read no field that a consumed transaction changes. -/

@[simp] theorem loadIndex_consume (s : State) : loadIndex (consume s) = loadIndex s := rfl
@[simp] theorem hasRoom_consume (s : State) : hasRoom (consume s) = hasRoom s := rfl
@[simp] theorem inReady_consume (s : State) : inReady (consume s) = inReady s := rfl
@[simp] theorem inReady_offer (t : Txn) (s : State) : inReady (offer t s) = inReady s := rfl
@[simp] theorem heldOutcome_offer (t : Txn) (s : State) : heldOutcome (offer t s) = heldOutcome s := rfl
@[simp] theorem heldOutcome_consume (s : State) : heldOutcome (consume s) = heldOutcome s := rfl
@[simp] theorem checkKind_consume (c : Byte) (s : State) : checkKind c (consume s) = checkKind c s := rfl

end Sys2Proof.Machine
end

