-- ==== Sys2Proof/Laws/Step.lean ====
section
/-! SUPPORT. What each shared operation and each meaning can answer, said once, and what a step does with each first transaction. -/

namespace Sys2Proof.Machine

/-- There is room exactly while no outcome is held (OUT_DEPTH is 1). -/
@[simp] theorem hasRoom_eq (s : State) : hasRoom s = !s.outValid := by
  cases h : s.outValid <;> simp [hasRoom, heldCount, Config.outDepth, h]

theorem inEnabled_iff {p : Phase} {s : State} : inEnabled p s = true ↔ s.phase = p ∧ s.outValid = false := by
  simp [inEnabled]

/-- An IN operation in a state where it is enabled. -/
theorem whenIn_of_enabled {p : Phase} {s : State} (h : inEnabled p s = true) (act : State → Result) :
    whenIn p s act = act (consume s) := by
  simp [whenIn, h]

/-- An IN operation in a state where it is not enabled leaves everything as it is. -/
theorem whenIn_of_not_enabled {p : Phase} {s : State} (h : inEnabled p s = false) (act : State → Result) :
    whenIn p s act = .next s := by
  simp [whenIn, h, hold]

/-- All that an IN operation can do. -/
theorem whenIn_next {p : Phase} {s t : State} {act : State → Result} (h : whenIn p s act = .next t) :
    (s.phase = p ∧ s.outValid = false ∧ act (consume s) = .next t) ∨ (inEnabled p s = false ∧ t = s) := by
  unfold whenIn at h
  split at h
  · rename_i he
    exact .inl ⟨(inEnabled_iff.1 he).1, (inEnabled_iff.1 he).2, h⟩
  · rename_i he
    exact .inr ⟨by simpa using he, by simpa [hold] using h.symm⟩

theorem execSkip_next {b : Byte} {s t : State} (h : execSkip b s = .next t) : t = consume s ∨ t = s := by
  unfold execSkip at h
  split at h
  · exact .inr (by simpa [hold] using h.symm)
  · obtain ⟨-, -, h⟩ | ⟨-, h⟩ := whenIn_next h
    · exact .inl (by simpa using h.symm)
    · exact .inr h

theorem execSync_next {s t : State} (h : execSync s = .next t) :
    (s.phase = .hunt ∧ s.outValid = false
      ∧ t = { consume s with phase := .body, cnt := 0#Config.cntWidth, crc := Config.crcInit }) ∨ t = s := by
  obtain ⟨h1, h2, h⟩ | ⟨-, h⟩ := whenIn_next h
  · exact .inl ⟨h1, h2, by simpa using h.symm⟩
  · exact .inr h

theorem execEosIdle_next {s t : State} (h : execEosIdle s = .next t) :
    (s.phase = .hunt ∧ s.outValid = false ∧ t = endSession (consume s)) ∨ t = s := by
  obtain ⟨h1, h2, h⟩ | ⟨-, h⟩ := whenIn_next h
  · exact .inl ⟨h1, h2, by simpa using h.symm⟩
  · exact .inr h

theorem execEosBody_next {s t : State} (h : execEosBody s = .next t) :
    (s.phase = .body ∧ s.outValid = false ∧ t = endSession (consume s)) ∨ t = s := by
  obtain ⟨h1, h2, h⟩ | ⟨-, h⟩ := whenIn_next h
  · exact .inl ⟨h1, h2, by simpa using h.symm⟩
  · exact .inr h

theorem execEosCheck_next {s t : State} (h : execEosCheck s = .next t) :
    (s.phase = .check ∧ s.outValid = false ∧ t = endSession (consume s)) ∨ t = s := by
  obtain ⟨h1, h2, h⟩ | ⟨-, h⟩ := whenIn_next h
  · exact .inl ⟨h1, h2, by simpa using h.symm⟩
  · exact .inr h

theorem execLoad_next {b : Byte} {s t : State} (h : execLoad b s = .next t) :
    (s.phase = .body ∧ s.outValid = false ∧ t = loadByte b (consume s)) ∨ t = s := by
  obtain ⟨h1, h2, h⟩ | ⟨-, h⟩ := whenIn_next h
  · exact .inl ⟨h1, h2, by simpa using h.symm⟩
  · exact .inr h

theorem execCheck_next {b : Byte} {s t : State} (h : execCheck b s = .next t) :
    (s.phase = .check ∧ s.outValid = false
      ∧ t = { emit (checkKind b s) (consume s) with phase := .hunt, cnt := 0#Config.cntWidth }) ∨ t = s := by
  obtain ⟨h1, h2, h⟩ | ⟨-, h⟩ := whenIn_next h
  · exact .inl ⟨h1, h2, by simpa using h.symm⟩
  · exact .inr h

theorem execDeliver_next {s t : State} (h : execDeliver s = .next t) :
    (s.outValid = true ∧ t = handOver (consume s)) ∨ (s.outValid = false ∧ t = s) := by
  unfold execDeliver at h
  split at h
  · rename_i hv
    exact .inl ⟨hv, by simpa using h.symm⟩
  · rename_i hv
    exact .inr ⟨by simpa using hv, by simpa [hold] using h.symm⟩

/-- Below `DATA_LEN` the counter counts without wrapping. -/
theorem count_succ {c : Count} (h : c.toNat < Config.dataLen) : (c + 1#Config.cntWidth).toNat = c.toNat + 1 := by
  simp at h ⊢
  omega

/-- RECORD exactly when the checksum byte is the register (R103; the output is neither reflected nor exclusive-ored). -/
@[simp] theorem checkKind_eq (c : Byte) (s : State) : checkKind c s = if c = s.crc then .record else .corrupt := by
  simp [checkKind]

/-! What a step does, by the first transaction pending. -/

theorem step_of_nil {s : State} (h : s.pending = []) : step s = .next s := by
  simp [step, fetch, h, hold]

theorem step_of_cons {s : State} {t : Txn} {rest : List Txn} (h : s.pending = t :: rest) :
    step s = match decode (keyOf s.phase t) with
      | .ok i => exec i s
      | .error e => undecoded e s := by
  have hf : fetch s = some (keyOf s.phase t) := by simp [fetch, h]
  cases hd : decode (keyOf s.phase t) <;> simp [step, hf, hd]

theorem step_of_out {s : State} {rest : List Txn} (h : s.pending = .out :: rest) : step s = execDeliver s := by
  simp [step_of_cons h, exec]

theorem step_of_reset {s : State} {rest : List Txn} (h : s.pending = .reset :: rest) : step s = execReset s := by
  simp [step_of_cons h, exec]

theorem step_of_reserved {s : State} {rest : List Txn} (h : s.pending = .reserved :: rest) :
    step s = .refused .reservedKind := by
  simp [step_of_cons h, undecoded]

/-- A data token, by phase. -/
theorem step_of_data {s : State} {b : Byte} {rest : List Txn} (h : s.pending = .inp { eos := false, data := b } :: rest) :
    step s = match s.phase with
      | .hunt => if b = Config.syncByte then execSync s else execSkip b s
      | .body => execLoad b s
      | .check => execCheck b s
      | .done => .next s := by
  rw [step_of_cons h, decode_keyOf_inp]
  cases s.phase <;> simp only [decodeData, Bool.false_eq_true, if_false]
  · by_cases hb : b = Config.syncByte <;> simp [hb, exec]
  all_goals rfl

/-- An EOS token, by phase; its data bits do not matter (R61). -/
theorem step_of_eos {s : State} {b : Byte} {rest : List Txn} (h : s.pending = .inp { eos := true, data := b } :: rest) :
    step s = match s.phase with
      | .hunt => execEosIdle s
      | .body => execEosBody s
      | .check => execEosCheck s
      | .done => .next s := by
  rw [step_of_cons h, decode_keyOf_inp]
  cases s.phase <;> rfl

/-- All that one step answering a next state can have done, with the transaction it took. -/
inductive StepTo (s : State) : State → Prop where
  /-- Nothing pending, or the first transaction is not enabled. -/
  | stay : StepTo s s
  | skip (b : Byte) (rest : List Txn) (hp : s.pending = .inp { eos := false, data := b } :: rest)
      (hs : s.phase = .hunt) (hv : s.outValid = false) (hb : b ≠ Config.syncByte) : StepTo s (consume s)
  | sync (rest : List Txn) (hp : s.pending = .inp { eos := false, data := Config.syncByte } :: rest)
      (hs : s.phase = .hunt) (hv : s.outValid = false) :
      StepTo s { consume s with phase := .body, cnt := 0#Config.cntWidth, crc := Config.crcInit }
  | load (b : Byte) (rest : List Txn) (hp : s.pending = .inp { eos := false, data := b } :: rest)
      (hs : s.phase = .body) (hv : s.outValid = false) : StepTo s (loadByte b (consume s))
  | check (b : Byte) (rest : List Txn) (hp : s.pending = .inp { eos := false, data := b } :: rest)
      (hs : s.phase = .check) (hv : s.outValid = false) :
      StepTo s { emit (checkKind b s) (consume s) with phase := .hunt, cnt := 0#Config.cntWidth }
  | eos (b : Byte) (rest : List Txn) (hp : s.pending = .inp { eos := true, data := b } :: rest)
      (hs : s.phase ≠ .done) (hv : s.outValid = false) : StepTo s (endSession (consume s))
  | deliver (rest : List Txn) (hp : s.pending = .out :: rest) (hv : s.outValid = true) :
      StepTo s (handOver (consume s))
  | reset (rest : List Txn) (hp : s.pending = .reset :: rest) :
      StepTo s { consume s with phase := .hunt, cnt := 0#Config.cntWidth, crc := 0#Config.crcWidth, outValid := false,
                                outKind := outKindOfBit (Config.freeOutKind s.freeCount), freeCount := s.freeCount + 1 }

theorem stepTo_of_data {s t : State} {b : Byte} {rest : List Txn}
    (hp : s.pending = .inp { eos := false, data := b } :: rest) (h : step s = .next t) : StepTo s t := by
  rw [step_of_data hp] at h
  split at h <;> rename_i hs
  · split at h
    · rename_i hb
      subst hb
      obtain ⟨-, hv, rfl⟩ | rfl := execSync_next h
      · exact .sync rest hp hs hv
      · exact .stay
    · rename_i hb
      rw [execSkip, if_neg hb] at h
      obtain ⟨-, hv, h⟩ | ⟨-, rfl⟩ := whenIn_next h
      · cases h
        exact .skip b rest hp hs hv hb
      · exact .stay
  · obtain ⟨-, hv, rfl⟩ | rfl := execLoad_next h
    · exact .load b rest hp hs hv
    · exact .stay
  · obtain ⟨-, hv, rfl⟩ | rfl := execCheck_next h
    · exact .check b rest hp hs hv
    · exact .stay
  · cases h
    exact .stay

theorem stepTo_of_eos {s t : State} {b : Byte} {rest : List Txn}
    (hp : s.pending = .inp { eos := true, data := b } :: rest) (h : step s = .next t) : StepTo s t := by
  rw [step_of_eos hp] at h
  split at h <;> rename_i hs
  · obtain ⟨-, hv, rfl⟩ | rfl := execEosIdle_next h
    · exact .eos b rest hp (by simp [hs]) hv
    · exact .stay
  · obtain ⟨-, hv, rfl⟩ | rfl := execEosBody_next h
    · exact .eos b rest hp (by simp [hs]) hv
    · exact .stay
  · obtain ⟨-, hv, rfl⟩ | rfl := execEosCheck_next h
    · exact .eos b rest hp (by simp [hs]) hv
    · exact .stay
  · cases h
    exact .stay

/-- The inversion of one step. -/
theorem step_next {s t : State} (h : step s = .next t) : StepTo s t := by
  cases hp : s.pending with
  | nil =>
    rw [step_of_nil hp] at h
    cases h
    exact .stay
  | cons txn rest =>
    cases txn with
    | inp tok =>
      obtain ⟨eos, b⟩ := tok
      cases eos
      · exact stepTo_of_data hp h
      · exact stepTo_of_eos hp h
    | out =>
      rw [step_of_out hp] at h
      obtain ⟨hv, rfl⟩ | ⟨-, rfl⟩ := execDeliver_next h
      · exact .deliver rest hp hv
      · exact .stay
    | reset =>
      rw [step_of_reset hp, execReset] at h
      cases h
      exact .reset rest hp
    | reserved =>
      rw [step_of_reserved hp] at h
      cases h

end Sys2Proof.Machine
end

