-- ==== Sys2Proof/Laws/Run.lean ====
section
/-! SUPPORT. Runs of several steps: how they are put together, that they have one end, and that they are the host's runs. -/

namespace Sys2Proof.Machine

@[simp] theorem runsTo_zero (s t : State) : runsTo 0 s t ↔ s = t := Iff.rfl

theorem runsTo_succ {n : Nat} {s u t : State} (h : step s = .next u) (hr : runsTo n u t) : runsTo (n + 1) s t :=
  ⟨u, h, hr⟩

theorem runsTo_one {s t : State} (h : step s = .next t) : runsTo 1 s t := ⟨t, h, rfl⟩

theorem runsTo_add {m n : Nat} {s u t : State} (h : runsTo m s u) (hr : runsTo n u t) : runsTo (m + n) s t := by
  induction m generalizing s with
  | zero =>
    cases h
    simpa using hr
  | succ m ih =>
    obtain ⟨v, hv, h⟩ := h
    rw [Nat.succ_add]
    exact ⟨v, hv, ih h⟩

theorem runsTo_unique {n : Nat} {s t t' : State} (h : runsTo n s t) (h' : runsTo n s t') : t = t' := by
  induction n generalizing s with
  | zero => exact h.symm.trans h'
  | succ n ih =>
    obtain ⟨u, hu, h⟩ := h
    obtain ⟨u', hu', h'⟩ := h'
    rw [hu] at hu'
    cases hu'
    exact ih h h'

/-- What one step keeps, a run keeps. -/
theorem runsTo_keeps {P : State → Prop} (keep : ∀ s t, P s → step s = .next t → P t) {n : Nat} {s t : State}
    (hs : P s) (h : runsTo n s t) : P t := by
  induction n generalizing s with
  | zero => exact h ▸ hs
  | succ n ih =>
    obtain ⟨u, hu, h⟩ := h
    exact ih (keep s u hs hu) h

/-- `runsTo` is the host's `Core.run` answering a next state. -/
theorem runsTo_iff_run (n : Nat) (s t : State) : runsTo n s t ↔ Host.Core.run Sys2Proof.core n s = .next t := by
  induction n generalizing s with
  | zero => exact ⟨fun h => congrArg _ h, fun h => by cases h; rfl⟩
  | succ n ih =>
    have hstep : Sys2Proof.core.step s = step s := rfl
    simp only [Host.Core.run]
    cases hs : step s with
    | next u =>
      rw [hstep, hs]
      refine Iff.trans ?_ (ih u)
      exact ⟨fun ⟨v, hv, h⟩ => by (rw [hs] at hv; cases hv; exact h), fun h => ⟨u, hs, h⟩⟩
    | fault r =>
      rw [hstep, hs]
      exact ⟨fun ⟨v, hv, _⟩ => by (rw [hs] at hv; cases hv), fun h => by cases h⟩
    | refused r =>
      rw [hstep, hs]
      exact ⟨fun ⟨v, hv, _⟩ => by (rw [hs] at hv; cases hv), fun h => by cases h⟩

end Sys2Proof.Machine
end

