-- ==== Sys2Proof/Laws/Transaction.lean ====
section
/-! SUPPORT. The step relation of R30: when a transaction is a step, all that it can do, and how `step` agrees with it. -/

namespace Sys2Proof.Machine

@[simp] theorem enabled_inp (tok : Token) (s : State) : enabled (.inp tok) s = inReady s := rfl
@[simp] theorem enabled_out (s : State) : enabled .out s = s.outValid := rfl
@[simp] theorem enabled_reset (s : State) : enabled .reset s = true := rfl
@[simp] theorem enabled_reserved (s : State) : enabled .reserved s = false := rfl

/-- Being enabled does not depend on what the environment offers. -/
@[simp] theorem enabled_offer (t u : Txn) (s : State) : enabled t (offer u s) = enabled t s := by cases t <;> rfl

@[simp] theorem txnOutcome_inp (s : State) (tok : Token) : txnOutcome s (.inp tok) = none := rfl
@[simp] theorem txnOutcome_reset (s : State) : txnOutcome s .reset = none := rfl
@[simp] theorem txnOutcome_reserved (s : State) : txnOutcome s .reserved = none := rfl
theorem txnOutcome_out (s : State) : txnOutcome s .out = if s.outValid then some (heldOutcome s) else none := rfl

/-- What a transaction hands over does not depend on what the environment offers. -/
@[simp] theorem txnOutcome_offer (t u : Txn) (s : State) : txnOutcome (offer u s) t = txnOutcome s t := by cases t <;> rfl

theorem nextState?_eq_some {r : Result} {t : State} : nextState? r = some t ↔ r = .next t := by
  cases r <;> simp [nextState?]

/-- What a step of R30 is: the transaction is enabled, and the machine offered it answers that state. -/
theorem txnStep_eq_some {s u : State} {t : Txn} :
    txnStep s t = some u ↔ enabled t s = true ∧ step (offer t s) = .next u := by
  cases h : enabled t s <;> simp [txnStep, h, nextState?_eq_some]

/-- The inversion of a step of R30. -/
theorem txnStep_next {s u : State} {t : Txn} (h : txnStep s t = some u) : enabled t s = true ∧ StepTo (offer t s) u :=
  ⟨(txnStep_eq_some.1 h).1, step_next (txnStep_eq_some.1 h).2⟩

/-- With an enabled transaction offered, the machine's step is the step of R30. -/
theorem step_eq_txnStep {s : State} {t : Txn} {rest : List Txn} (h : s.pending = t :: rest) (he : enabled t s = true) :
    nextState? (step s) = txnStep { s with pending := rest } t := by
  have ho : offer t { s with pending := rest } = s := by simp [offer, ← h]
  have he' : enabled t { s with pending := rest } = true := by rwa [← enabled_offer t t, ho]
  rw [txnStep, if_pos he', ho]

end Sys2Proof.Machine
end

