-- ==== Sys2Proof/Tests/Slice0.lean ====
section
/-! SUPPORT. The model's own tests: the well-formedness check, decoding of words written out from the patterns of R66, one step of each
operation on the vectors of 95_test_vectors (expected values from there), and for each statement with hypotheses a state
and operands that meet them. -/

namespace Sys2Proof.Tests

open Sys2Proof Sys2Proof.Machine

/-! ## Helpers -/

/-- The state {phase, cnt, crc, out_valid} of 95_test_vectors, buf unwritten, with some transactions pending. -/
def st (p : Phase) (n : Nat) (c : Byte) (v : Bool) (pend : List Txn) : State :=
  { State.reset with phase := p, cnt := BitVec.ofNat 5 n, crc := c, outValid := v, pending := pend }

/-- buf with its first `n` bytes 0. -/
def zeros (n : Nat) : Memory := (List.range n).map fun i => (i, 0#8)

/-- A RECORD of zeros is held. -/
def heldRecord (pend : List Txn) : State := { st .hunt 0 0x00#8 true pend with buf := zeros 24 }

/-- A CORRUPT outcome is held. -/
def heldCorrupt (pend : List Txn) : State := { st .hunt 0 0xE5#8 true pend with outKind := .corrupt }

/-- The Record of W1, [42, 1, -2, 0, ...]. -/
def w1 : Record := ⟨42, #v[1, -2, 0, 0, 0, 0, 0, 0, 0, 0]⟩

/-- The Record of the third RECORD row of section 2.5. -/
def corners : Record := ⟨2147483648, #v[-32768, 32767, -1, 1, -256, 255, 16705, -16192, 2, 3]⟩

/-- What a step or an operation leaves, read by `f`; `none` where it stops. -/
def after {α : Type} (f : State → α) (r : Result) : Option α :=
  match r with
  | .next t => some (f t)
  | .fault _ => none
  | .refused _ => none

/-- {phase, cnt, crc, out_valid} of a state. -/
def regs (s : State) : Phase × Nat × Byte × Bool := (s.phase, s.cnt.toNat, s.crc, s.outValid)

/-! ## Well-formedness (R66, R67) and the constants (R7) -/

theorem test_wf_refuses_skip_of_sentinel : wellFormed (.skip 0x41#8) = false := by decide
theorem test_wf_accepts_skip_one_bit_away : wellFormed (.skip 0x40#8) = true := by decide
theorem test_config_lengths :
    (Config.dataLen, Config.payloadLen, Config.frameLen, Config.nS16, Config.outDepth) = (24, 25, 26, 10, 1) := by decide
theorem test_config_bytes :
    (Config.syncByte, Config.crcPoly, Config.crcInit, Config.crcXorOut) = (0x41#8, 0x07#8, 0x00#8, 0x00#8) := by decide

/-! ## Decoding: words written out from the patterns of R66 -/

theorem test_decode_skip : decode 0b0000011000001#13 = .ok (.skip 0xC1#8) := by decide
theorem test_decode_sync : decode 0b0000001000001#13 = .ok .sync := by decide
theorem test_decode_eosIdle : decode 0b0000101000001#13 = .ok .eosIdle := by decide
theorem test_decode_load : decode 0b0001000101010#13 = .ok (.load 0x2A#8) := by decide
theorem test_decode_eosBody : decode 0b0001100000000#13 = .ok .eosBody := by decide
theorem test_decode_check : decode 0b0010011100101#13 = .ok (.check 0xE5#8) := by decide
theorem test_decode_eosCheck : decode 0b0010111111111#13 = .ok .eosCheck := by decide
theorem test_decode_deliver : decode 0b0111100110011#13 = .ok .deliver := by decide
theorem test_decode_reset : decode 0b1011100110011#13 = .ok .reset := by decide
theorem test_decode_done_is_no_operation : decode 0b0011001000001#13 = .error .inputWhenDone := by decide
theorem test_decode_reserved : decode 0b1100000000000#13 = .error .reservedKind := by decide

theorem test_table_word_skip : decodeTableWord 16 0x0000 = some (.skip 0x00#8) := by decide
theorem test_table_word_reset : decodeTableWord 16 0x1000 = some .reset := by decide
theorem test_table_word_above_key : decodeTableWord 16 0x2000 = none := by decide

/-! ## The CRC (95_test_vectors section 2.1) -/

theorem test_crc_step_one : crc8Step 0x00#8 0x01#8 = 0x07#8 := by decide
theorem test_crc_step_top_bit : crc8Step 0x00#8 0x80#8 = 0x89#8 := by decide
theorem test_crc_step_zero_byte_shifts : crc8Step 0x07#8 0x00#8 = 0x15#8 := by decide
theorem test_crc_check_value :
    crc8 [0x31#8, 0x32#8, 0x33#8, 0x34#8, 0x35#8, 0x36#8, 0x37#8, 0x38#8, 0x39#8] = 0xF4#8 := by decide +kernel
theorem test_crc_w1 : crc8 (recordBytes w1) = 0xE5#8 := by decide +kernel

/-! ## The Record (95_test_vectors section 2.5, third RECORD row) -/

theorem test_record_bytes :
    recordBytes corners
      = [0x80#8, 0x00#8, 0x00#8, 0x00#8, 0x80#8, 0x00#8, 0x7F#8, 0xFF#8, 0xFF#8, 0xFF#8, 0x00#8, 0x01#8]
        ++ [0xFF#8, 0x00#8, 0x00#8, 0xFF#8, 0x41#8, 0x41#8, 0xC0#8, 0xC0#8, 0x00#8, 0x02#8, 0x00#8, 0x03#8] := by decide
theorem test_unpack_all_ones :
    recordList (unpack fun _ => 0xFF#8) = [4294967295, -1, -1, -1, -1, -1, -1, -1, -1, -1, -1] := by decide

/-! ## One step of each operation (95_test_vectors sections 2.2 to 2.6) -/

theorem test_skip : after regs (step (st .hunt 0 0x00#8 false [lineB 0x40#8])) = some (.hunt, 0, 0x00#8, false) := by decide
theorem test_skip_held_back :
    after State.pending (step (st .hunt 0 0xE5#8 true [lineB 0x00#8])) = some [lineB 0x00#8] := by decide
theorem test_sync : after regs (step (st .hunt 0 0x5D#8 false [lineB 0x41#8])) = some (.body, 0, 0x00#8, false) := by decide
theorem test_sync_held_back : after regs (step (st .hunt 0 0xE5#8 true [lineB 0x41#8])) = some (.hunt, 0, 0xE5#8, true) := by
  decide
theorem test_eosIdle : after regs (step (st .hunt 0 0x00#8 false [lineEos])) = some (.done, 0, 0x00#8, false) := by decide
theorem test_load : after regs (step (st .body 3 0x00#8 false [lineB 0x2A#8])) = some (.body, 4, 0xD6#8, false) := by decide
theorem test_load_24th : after regs (step (st .body 23 0x94#8 false [lineB 0x00#8])) = some (.check, 24, 0xE5#8, false) := by
  decide
theorem test_load_writes : after State.buf (step (st .body 3 0x00#8 false [lineB 0x41#8])) = some [(3, 0x41#8)] := by decide
theorem test_load_outside_writes_nothing :
    after (fun s => (s.buf, regs s)) (step (st .body 31 0x00#8 false [lineB 0x01#8])) = some ([], .body, 0, 0x07#8, false) := by
  decide
theorem test_eosBody : after regs (step (st .body 10 0x01#8 false [lineEos])) = some (.done, 10, 0x01#8, false) := by decide
theorem test_check_match :
    after (fun s => (regs s, s.outKind)) (step (st .check 24 0xE5#8 false [lineB 0xE5#8]))
      = some ((.hunt, 0, 0xE5#8, true), .record) := by decide
theorem test_check_mismatch :
    after (fun s => (regs s, s.outKind)) (step (st .check 24 0xE5#8 false [lineB 0x41#8]))
      = some ((.hunt, 0, 0xE5#8, true), .corrupt) := by decide
theorem test_eosCheck : after regs (step (st .check 24 0xE5#8 false [lineEos])) = some (.done, 24, 0xE5#8, false) := by decide
theorem test_deliver_record :
    after (fun s => s.delivered.map fun o => match o with | .record r => recordList r | .corrupt => []) (step (heldRecord [lineTake]))
      = some [[0, 0, 0, 0, 0, 0, 0, 0, 0, 0, 0]] := by decide
theorem test_deliver_corrupt :
    after (fun s => (s.delivered, s.outValid)) (step (heldCorrupt [lineTake])) = some ([.corrupt], false) := by decide
theorem test_reset_body : after regs (step (st .body 12 0x15#8 false [lineRst])) = some (.hunt, 0, 0x00#8, false) := by decide
theorem test_reset_drops_held :
    after (fun s => (regs s, s.delivered)) (step (heldCorrupt [lineRst])) = some ((.hunt, 0, 0x00#8, false), []) := by decide
theorem test_reset_port_before_handshake :
    after (fun s => (s.outValid, s.delivered))
        (portStep { inValid := true, inEos := false, inData := 0x41#8, outReady := true, rst := true } (heldCorrupt []))
      = some (false, []) := by decide

/-! ## Transactions as steps (R30) -/

theorem test_txn_not_enabled_is_no_step :
    txnStep (heldCorrupt []) (lineB 0x41#8) = none ∧ txnStep State.reset lineTake = none
      ∧ txnStep (st .done 0 0x00#8 false []) lineEos = none := by decide
theorem test_txn_out_hands_over :
    (txnStep (heldCorrupt []) lineTake).map regs = some (.hunt, 0, 0xE5#8, false)
      ∧ txnOutcome (heldCorrupt []) lineTake = some .corrupt := by decide

/-! ## A key placed where the step takes its next operation -/

theorem test_placed_load : after regs (step (State.reset.withFetchWord 16 0x0201)) = some (.body, 1, 0x07#8, false) := by decide
theorem test_placed_deliver : after State.outValid (step (State.reset.withFetchWord 16 0x0800)) = some false := by decide

/-! ## States that meet the invariant -/

theorem inv_heldRecord : BlockInv (heldRecord [lineTake]) := by constructor <;> decide +kernel
theorem inv_heldCorrupt : BlockInv (heldCorrupt [lineB 0x00#8]) := by constructor <;> decide
theorem inv_body_last : BlockInv { st .body 23 0x00#8 false [lineB 0x00#8] with buf := zeros 23 } := by
  constructor <;> decide +kernel
theorem inv_check : BlockInv { st .check 24 0x00#8 false [lineB 0x00#8] with buf := zeros 24 } := by
  constructor <;> decide +kernel
theorem inv_done : BlockInv (st .done 0 0x00#8 false [lineB 0x41#8]) := by constructor <;> decide
theorem inv_hunt : BlockInv (st .hunt 0 0x5D#8 false [lineB 0x41#8]) := by constructor <;> decide

/-! ## Witnesses: for each statement with hypotheses, values that meet all of them together, clause by clause -/

theorem witness_DecodeOfEncode : wellFormed (.skip 0x40#8) = true ∧ wellFormed (.load 0x41#8) = true := by decide

theorem witness_MatchingRowGivesOperation :
    (∃ r ∈ opRows, r.mnemonic = "SKIP" ∧ rowMatches 0x0040#13 r = true)
      ∧ (∃ r ∈ opRows, r.mnemonic = "SYNC" ∧ rowMatches 0x0041#13 r = true)
      ∧ ∃ r ∈ opRows, r.mnemonic = "DELIVER" ∧ rowMatches 0x0FFF#13 r = true := by decide

theorem witness_RowsAreDisjoint :
    ∃ r ∈ opRows, ∃ r' ∈ opRows, rowMatches 0x0041#13 r = true ∧ rowMatches 0x0041#13 r' = true := by decide

theorem witness_EnabledTransactionHasOneRow :
    enabled (lineB 0x41#8) State.reset = true ∧ enabled lineEos (st .check 24 0x00#8 false []) = true
      ∧ enabled lineTake (heldCorrupt []) = true ∧ enabled lineRst (st .done 0 0x00#8 false []) = true := by decide

theorem witness_ReservedKindIsRefused :
    (st .hunt 0 0x00#8 false [.reserved]).pending = .reserved :: [] ∧ 0x1800 ≤ (0x1800#13).toNat
      ∧ ¬ 0x1800 ≤ (0x17FF#13).toNat := by decide

theorem witness_EosDataBitsAreIgnored :
    inReady State.reset = true ∧ inReady (st .body 10 0x01#8 false []) = true
      ∧ inReady (st .check 24 0xE5#8 false []) = true := by decide

theorem witness_StepRunsTheDecodedOperation :
    (st .body 0 0x00#8 false [lineB 0x41#8]).pending = lineB 0x41#8 :: []
      ∧ decode (keyOf .body (lineB 0x41#8)) = .ok (.load 0x41#8)
      ∧ (st .body 0 0x00#8 false []).pending = [] := by decide

theorem witness_PlacedWordIsRun : decode 0x0241#13 = .ok (.load 0x41#8) ∧ decode 0x0FFF#13 = .ok .deliver := by decide

theorem witness_TokenAcceptedIffReady_ready :
    inReady (st .hunt 0 0x5D#8 false [lineB 0x41#8]) = true
      ∧ (st .hunt 0 0x5D#8 false [lineB 0x41#8]).pending = lineB 0x41#8 :: [] := by decide

theorem witness_TokenAcceptedIffReady_held :
    inReady (heldCorrupt [lineB 0x00#8]) = false
      ∧ (heldCorrupt [lineB 0x00#8]).pending = lineB 0x00#8 :: []
      ∧ ∃ t, step (heldCorrupt [lineB 0x00#8]) = .next t := ⟨by decide, by decide, _, rfl⟩

theorem witness_TokenAcceptedIffReady_done :
    inReady (st .done 0 0x00#8 false [lineB 0x41#8]) = false
      ∧ (st .done 0 0x00#8 false [lineB 0x41#8]).pending = lineB 0x41#8 :: []
      ∧ ∃ t, step (st .done 0 0x00#8 false [lineB 0x41#8]) = .next t := ⟨by decide, by decide, _, rfl⟩

theorem witness_NotEnabledIsHeld :
    enabled (lineB 0x00#8) (st .done 0 0x00#8 false [lineB 0x00#8]) = false
      ∧ enabled (lineB 0x00#8) (heldCorrupt [lineB 0x00#8]) = false
      ∧ enabled lineTake (st .hunt 0 0x00#8 false [lineTake]) = false ∧ lineTake ≠ .reserved := by decide

theorem witness_OperationOutsideItsPhaseIsHeld :
    (st .body 0 0x00#8 false []).phase ≠ .hunt ∧ (heldCorrupt []).outValid = true
      ∧ (st .hunt 0 0x00#8 false []).phase ≠ .body ∧ (st .body 23 0x00#8 false []).phase ≠ .check
      ∧ State.reset.outValid = false := by decide

theorem witness_SkipDiscardsTheByte :
    State.reset.phase = .hunt ∧ State.reset.outValid = false ∧ 0x40#8 ≠ 0x41#8 := by decide

theorem witness_SyncOpensAFrame :
    (st .hunt 0 0x5D#8 false []).phase = .hunt ∧ (st .hunt 0 0x5D#8 false []).outValid = false := by decide

theorem witness_EndOfStreamEndsTheSession :
    ((st .hunt 0 0x00#8 false []).outValid = false ∧ (st .hunt 0 0x00#8 false []).phase = .hunt)
      ∧ ((st .body 0 0x00#8 false []).outValid = false ∧ (st .body 0 0x00#8 false []).phase = .body)
      ∧ ((st .check 24 0xE5#8 false []).outValid = false ∧ (st .check 24 0xE5#8 false []).phase = .check) := by decide

theorem witness_LoadCapturesTheByte :
    ((st .body 0 0x00#8 false []).phase = .body ∧ (st .body 0 0x00#8 false []).outValid = false
        ∧ (st .body 0 0x00#8 false []).cnt.toNat ≤ 23)
      ∧ ((st .body 23 0x94#8 false []).phase = .body ∧ (st .body 23 0x94#8 false []).outValid = false
        ∧ (st .body 23 0x94#8 false []).cnt.toNat ≤ 23) := by decide

theorem witness_LoadOutsideTheBufferWritesNothing :
    ((st .body 24 0x00#8 false []).phase = .body ∧ (st .body 24 0x00#8 false []).outValid = false
        ∧ 24 ≤ (st .body 24 0x00#8 false []).cnt.toNat)
      ∧ (st .body 31 0x00#8 false []).phase = .body ∧ (st .body 31 0x00#8 false []).outValid = false
      ∧ 24 ≤ (st .body 31 0x00#8 false []).cnt.toNat := by decide

theorem witness_CheckHoldsTheOutcome :
    (st .check 24 0xE5#8 false []).phase = .check ∧ (st .check 24 0xE5#8 false []).outValid = false
      ∧ 0xE5#8 = (st .check 24 0xE5#8 false []).crc ∧ 0xE4#8 ≠ (st .check 24 0xE5#8 false []).crc := by decide

theorem witness_DeliverHandsOverTheOutcome :
    ((heldRecord []).outValid = true ∧ (heldRecord []).phase = .hunt ∧ (heldRecord []).outKind = .record)
      ∧ (heldCorrupt []).outValid = true ∧ (heldCorrupt []).outKind = .corrupt := by decide

theorem witness_OnlyLoadWritesTheBuffer :
    (∀ b, Instr.sync ≠ .load b) ∧ exec .sync State.reset = .next { State.reset with phase := .body } :=
  ⟨fun _ => by simp, rfl⟩

theorem witness_LoadFrame :
    ∃ t, exec (.load 0x2A#8) (st .body 3 0x00#8 false []) = .next t ∧ loadIndex (st .body 3 0x00#8 false []) = 3 :=
  ⟨_, rfl, rfl⟩

theorem witness_SkipAndEosFrame :
    (∃ t, exec (.skip 0x00#8) State.reset = .next t) ∧ (∃ t, exec .eosIdle State.reset = .next t)
      ∧ (∃ t, exec .eosBody (st .body 0 0x00#8 false []) = .next t)
      ∧ ∃ t, exec .eosCheck (st .check 24 0x00#8 false []) = .next t :=
  ⟨⟨_, rfl⟩, ⟨_, rfl⟩, ⟨_, rfl⟩, ⟨_, rfl⟩⟩

theorem witness_SyncFrame : ∃ t, exec .sync State.reset = .next t ∧ t.phase = .body := ⟨_, rfl, rfl⟩

theorem witness_CheckFrame :
    ∃ t, exec (.check 0xE4#8) (st .check 24 0xE5#8 false []) = .next t ∧ t.outKind = .corrupt := ⟨_, rfl, rfl⟩

theorem witness_DeliverFrame : ∃ t, exec .deliver (heldCorrupt []) = .next t ∧ t.outValid = false := ⟨_, rfl, rfl⟩

theorem witness_ResetFrame : ∃ t, exec .reset (heldCorrupt []) = .next t ∧ t.outValid = false := ⟨_, rfl, rfl⟩

theorem witness_OutDataIsTheBuffer : (heldRecord []).outValid = true ∧ (heldRecord []).outKind = .record := by decide

theorem witness_FieldsAreBigEndian_and_ranges :
    (1 ≤ 1 ∧ 1 ≤ 10) ∧ (1 ≤ 10 ∧ 10 ≤ 10)
      ∧ (recordList (unpack fun _ => 0x80#8))[10]? = some (-32640) := by decide

theorem witness_UnpackOfRecordBytes : recordInRange w1 = true ∧ recordInRange corners = true := by decide

theorem witness_OutputWordCarriesKindAndData :
    (heldRecord []).outValid = true ∧ (heldCorrupt []).outValid = true := by decide

theorem witness_InvariantKeptByEveryStep :
    BlockInv { st .body 23 0x00#8 false [lineB 0x00#8] with buf := zeros 23 }
      ∧ ∃ t, step { st .body 23 0x00#8 false [lineB 0x00#8] with buf := zeros 23 } = .next t :=
  ⟨inv_body_last, _, rfl⟩

theorem witness_BufferFormKeptByEveryStep :
    memWf (st .body 3 0x00#8 false [lineB 0x2A#8]).buf = true
      ∧ ∃ t, step (st .body 3 0x00#8 false [lineB 0x2A#8]) = .next t := ⟨by decide, _, rfl⟩

theorem witness_NoInputRaisesAFault :
    (∃ t, step (st .body 24 0x00#8 false [lineB 0x00#8]) = .next t)
      ∧ step (st .done 0 0x00#8 false [.reserved]) = .refused .reservedKind := ⟨⟨_, rfl⟩, rfl⟩

theorem witness_OnlyCheckEmits :
    ∃ t, step (st .check 24 0xE5#8 false [lineB 0xE4#8]) = .next t ∧ t.outValid = true
      ∧ t.outKind ≠ (st .check 24 0xE5#8 false [lineB 0xE4#8]).outKind := ⟨_, rfl, by decide, by decide⟩

theorem witness_OnlyTakeAndResetClear :
    (∃ t, step (heldCorrupt [lineTake]) = .next t ∧ t.outValid = false)
      ∧ ∃ t, step (heldCorrupt [lineRst]) = .next t ∧ t.outValid = false := ⟨⟨_, rfl, rfl⟩, _, rfl, rfl⟩

theorem witness_OnlyResetLeavesDone :
    (∃ t, step (st .done 0 0x00#8 false [lineRst]) = .next t ∧ t.phase ≠ .done)
      ∧ ∃ t, step (st .done 0 0x00#8 false [lineB 0x41#8]) = .next t := ⟨⟨_, rfl, by decide⟩, _, rfl⟩

theorem witness_OutcomesAreDeliveredInOrder :
    ∃ t, step (heldCorrupt [lineTake]) = .next t ∧ t.delivered = [.corrupt] := ⟨_, rfl, rfl⟩

theorem witness_HeldOutcomeIsStable :
    (heldRecord [lineB 0x00#8]).outValid = true
      ∧ ∃ t, step (heldRecord [lineB 0x00#8]) = .next t ∧ t.outValid = true := ⟨rfl, _, rfl, rfl⟩

theorem witness_OnlyEnabledTransactionsAreConsumed :
    (∃ t, step (st .hunt 0 0x00#8 false [lineB 0x00#8]) = .next t ∧ t.pending = [])
      ∧ (∃ t, step (st .hunt 0 0x00#8 false [lineTake]) = .next t ∧ t.pending = [lineTake])
      ∧ (enabled lineTake (heldCorrupt []) = true ∧ enabled lineRst (st .done 0 0x00#8 false []) = true)
      ∧ (st .hunt 0 0x00#8 false [lineB 0x41#8]).pending = lineB 0x41#8 :: [] :=
  ⟨⟨_, rfl, rfl⟩, ⟨_, rfl, rfl⟩, by decide, rfl⟩

theorem witness_SentinelInsideAFrameIsData :
    ((st .body 10 0x00#8 false [lineB 0x41#8]).pending = lineB 0x41#8 :: []
        ∧ (st .body 10 0x00#8 false [lineB 0x41#8]).phase = .body)
      ∧ ((st .check 24 0x41#8 false [lineB 0x41#8]).pending = lineB 0x41#8 :: []
        ∧ (st .check 24 0x41#8 false [lineB 0x41#8]).phase = .check) := by decide

/-- A sample with a token presented and the sink ready. -/
def sample (outReady rst : Bool) : PortIn :=
  { inValid := true, inEos := false, inData := 0x41#8, outReady := outReady, rst := rst }

theorem witness_PortsRespectEnablingAndReset :
    arbitrate (sample true true) (heldCorrupt []) = some .reset ∧ (sample true true).rst = true
      ∧ arbitrate (sample true false) (heldCorrupt []) = some .out
      ∧ arbitrate (sample true false) State.reset = some (lineB 0x41#8)
      ∧ arbitrate (sample false false) (heldCorrupt []) = none
      ∧ ((sample true false).rst = false ∧ (sample true false).outReady = true ∧ (heldCorrupt []).outValid = true)
      ∧ ((sample true false).rst = false ∧ (sample true false).inValid = true ∧ inReady State.reset = true) := by decide

theorem witness_Resynchronization :
    (st .hunt 0 0x5D#8 false (bytesLines [0x00#8, 0x40#8] ++ [lineB 0x41#8])).phase = .hunt
      ∧ (st .hunt 0 0x5D#8 false (bytesLines [0x00#8, 0x40#8] ++ [lineB 0x41#8])).outValid = false
      ∧ (∀ b ∈ [0x00#8, 0x40#8], b ≠ 0x41#8)
      ∧ (st .hunt 0 0x5D#8 false (bytesLines [0x00#8, 0x40#8] ++ [lineB 0x41#8])).pending
        = bytesLines [0x00#8, 0x40#8] ++ lineB 0x41#8 :: [] := by decide

theorem witness_PayloadCapture :
    (st .body 0 0x00#8 false (bytesLines (recordBytes w1))).phase = .body
      ∧ (st .body 0 0x00#8 false (bytesLines (recordBytes w1))).outValid = false
      ∧ (st .body 0 0x00#8 false (bytesLines (recordBytes w1))).cnt = 0#5
      ∧ (st .body 0 0x00#8 false (bytesLines (recordBytes w1))).crc = 0x00#8
      ∧ (recordBytes w1).length ≤ 24 ∧ (recordBytes w1).length = 24
      ∧ (st .body 0 0x00#8 false (bytesLines (recordBytes w1))).pending = bytesLines (recordBytes w1) ++ [] := by decide

theorem witness_EveryFrameIsJudgedByItsCrc :
    let s := st .hunt 0 0x00#8 false (lineB 0x41#8 :: (bytesLines (recordBytes w1) ++ lineB 0xE5#8 :: lineTake :: []))
    s.phase = .hunt ∧ s.outValid = false ∧ (recordBytes w1).length = 24
      ∧ s.pending = lineB 0x41#8 :: (bytesLines (recordBytes w1) ++ lineB 0xE5#8 :: lineTake :: []) := by decide

theorem witness_FrameRoundTrip :
    recordInRange corners = true ∧ (st .hunt 0 0x00#8 false (frameLines corners ++ [lineTake])).phase = .hunt
      ∧ (st .hunt 0 0x00#8 false (frameLines corners ++ [lineTake])).outValid = false
      ∧ (st .hunt 0 0x00#8 false (frameLines corners ++ [lineTake])).pending = frameLines corners ++ lineTake :: [] :=
  ⟨by decide, rfl, rfl, rfl⟩

theorem witness_CorruptFrameThenGoodFrame :
    let s := st .hunt 0 0x00#8 false (frameXLines 0x01#8 w1 ++ lineTake :: (frameLines corners ++ lineTake :: []))
    0x01#8 ≠ 0#8 ∧ recordInRange corners = true ∧ s.phase = .hunt ∧ s.outValid = false
      ∧ s.pending = frameXLines 0x01#8 w1 ++ lineTake :: (frameLines corners ++ lineTake :: []) :=
  ⟨by decide, by decide, rfl, rfl, rfl⟩

theorem witness_SingleBitErrorGivesCorrupt :
    let flipped := (recordBytes w1 ++ [crc8 (recordBytes w1)]).modify 24 fun b => b ^^^ (1#8 <<< 7)
    let s := st .hunt 0 0x00#8 false (lineB 0x41#8 :: (bytesLines flipped ++ lineTake :: []))
    (recordBytes w1).length = 24 ∧ 24 < 25 ∧ 7 < 8 ∧ s.phase = .hunt ∧ s.outValid = false
      ∧ s.pending = lineB 0x41#8 :: (bytesLines flipped ++ lineTake :: []) :=
  ⟨by decide, by decide, by decide, rfl, rfl, rfl⟩

theorem witness_TruncationIsSilent :
    (0 ≤ 24 ∧ 24 ≤ 24) ∧ (st .hunt 0 0x00#8 false (partLines 24 w1 ++ [lineEos])).phase = .hunt
      ∧ (st .hunt 0 0x00#8 false (partLines 24 w1 ++ [lineEos])).outValid = false
      ∧ (st .hunt 0 0x00#8 false (partLines 24 w1 ++ [lineEos])).pending = partLines 24 w1 ++ lineEos :: [] :=
  ⟨by decide, rfl, rfl, rfl⟩

theorem witness_CrcBetweenFramesDoesNotMatter :
    (st .hunt 0 0x5D#8 false [lineB 0x41#8]).phase = .hunt
      ∧ runsTo 1 (st .hunt 0 0x5D#8 false [lineB 0x41#8]) (st .body 0 0x00#8 false []) := ⟨rfl, _, rfl, rfl⟩

theorem witness_StaleBufferNeverShows :
    (st .hunt 0 0x00#8 false [lineB 0x41#8]).phase = .hunt ∧ (st .hunt 0 0x00#8 false [lineB 0x41#8]).outValid = false
      ∧ runsTo 1 (st .hunt 0 0x00#8 false [lineB 0x41#8]) (st .body 0 0x00#8 false []) := ⟨rfl, rfl, _, rfl, rfl⟩

theorem witness_FiniteStreamIsDecoded :
    ((st .hunt 0 0x5D#8 false []).phase ≠ .done ∧ (st .hunt 0 0x5D#8 false []).outValid = false)
      ∧ (st .body 23 0x5D#8 false []).phase ≠ .done ∧ (st .body 23 0x5D#8 false []).outValid = false := by decide

theorem witness_EveryScheduleEndsTheRun :
    ([lineB 0xE5#8, lineTake, lineEos].filter fun x => decide (x ≠ .out)) = bytesLines [0xE5#8] ++ [lineEos]
      ∧ (st .check 24 0xE4#8 false []).phase ≠ .done ∧ (st .check 24 0xE4#8 false []).outValid = false
      ∧ ∃ t, runsTo 3 { st .check 24 0xE4#8 false [] with pending := [lineB 0xE5#8, lineTake, lineEos] } t ∧ t.pending = [] :=
  ⟨by decide, by decide, by decide, _, ⟨_, rfl, _, rfl, _, rfl, rfl⟩, rfl⟩

end Sys2Proof.Tests
end

section
/-! The block's two ports as functions of its state: when the input port accepts a token (R31), and what word the output port
carries while a RECORD is held (R32). -/

namespace Sys2Proof.Proofs

open Sys2Proof Sys2Proof.Machine

/-! ## The input port -/

/-- The formula of R31. -/
theorem inReady_iff {s : State} : inReady s = true ↔ s.phase ≠ .done ∧ s.outValid = false := by
  simp [inReady]

/-- In a live session the operation of the present phase is enabled exactly when the block is ready. -/
theorem inEnabled_phase_eq_inReady {s : State} (hs : s.phase ≠ .done) : inEnabled s.phase s = inReady s := by
  simp [inEnabled, inReady, hs]

/-- What an IN operation does once its token is consumed: it answers a next state and takes no further transaction. -/
def KeepsPending (act : State → Result) : Prop := ∀ u, ∃ t, act u = .next t ∧ t.pending = u.pending

/-- In a live session a token's step is an IN operation of the present phase, and one that takes no further transaction. -/
theorem step_inp_eq_whenIn {s : State} {tok : Token} {rest : List Txn} (hp : s.pending = .inp tok :: rest)
    (hs : s.phase ≠ .done) : ∃ act, step s = whenIn s.phase s act ∧ KeepsPending act := by
  obtain ⟨eos, b⟩ := tok
  cases eos with
  | false =>
    rw [step_of_data hp]
    cases hphase : s.phase with
    | hunt =>
      by_cases hb : b = Config.syncByte
      · exact ⟨_, if_pos hb, fun _ => ⟨_, rfl, rfl⟩⟩
      · exact ⟨_, (if_neg hb).trans (if_neg hb), fun _ => ⟨_, rfl, rfl⟩⟩
    | body => exact ⟨_, rfl, fun _ => ⟨_, rfl, rfl⟩⟩
    | check => exact ⟨_, rfl, fun _ => ⟨_, rfl, rfl⟩⟩
    | done => exact absurd hphase hs
  | true =>
    rw [step_of_eos hp]
    cases hphase : s.phase with
    | hunt => exact ⟨_, rfl, fun _ => ⟨_, rfl, rfl⟩⟩
    | body => exact ⟨_, rfl, fun _ => ⟨_, rfl, rfl⟩⟩
    | check => exact ⟨_, rfl, fun _ => ⟨_, rfl, rfl⟩⟩
    | done => exact absurd hphase hs

/-- After the session a token is held (R70 (a)). -/
theorem step_inp_of_done {s : State} {tok : Token} {rest : List Txn} (hp : s.pending = .inp tok :: rest)
    (hs : s.phase = .done) : step s = .next s := by
  obtain ⟨eos, b⟩ := tok
  cases eos with
  | false => rw [step_of_data hp, hs]
  | true => rw [step_of_eos hp, hs]

/-- A ready block consumes the token and nothing more of what is offered. -/
theorem step_inp_of_ready {s : State} {tok : Token} {rest : List Txn} (hp : s.pending = .inp tok :: rest)
    (hr : inReady s = true) : ∃ t, step s = .next t ∧ t.pending = rest := by
  have hs : s.phase ≠ .done := (inReady_iff.1 hr).1
  obtain ⟨act, hstep, hact⟩ := step_inp_eq_whenIn hp hs
  have he : inEnabled s.phase s = true := (inEnabled_phase_eq_inReady hs).trans hr
  obtain ⟨t, ht, hpending⟩ := hact (consume s)
  exact ⟨t, by rw [hstep, whenIn_of_enabled he, ht], by rw [hpending, consume_pending, hp, List.tail_cons]⟩

/-- A block that is not ready holds the token, and nothing changes. -/
theorem step_inp_of_not_ready {s : State} {tok : Token} {rest : List Txn} (hp : s.pending = .inp tok :: rest)
    (hr : inReady s = false) : step s = .next s := by
  by_cases hs : s.phase = .done
  · exact step_inp_of_done hp hs
  · obtain ⟨act, hstep, -⟩ := step_inp_eq_whenIn hp hs
    rw [hstep, whenIn_of_not_enabled ((inEnabled_phase_eq_inReady hs).trans hr)]

/-- Settles O11: a token's step is an IN operation of the present phase, enabled exactly when the block is ready. -/
theorem tokenAcceptedIffReady : Obligations.TokenAcceptedIffReady := by
  intro s tok rest hp
  refine ⟨inReady_iff, step_inp_of_ready hp, fun hr t ht => ?_⟩
  rw [step_inp_of_not_ready hp hr] at ht
  cases ht
  exact hp

/-! ## The output port -/

/-- Byte `i` of a word of `n` bytes, counted from the most significant one, stands above the `n - 1 - i` bytes after it. -/
theorem bytesWord_extract_byte (d : Nat → Byte) {n i : Nat} (hi : i < n) :
    (bytesWord d n).extractLsb' (8 * (n - 1 - i)) 8 = d i := by
  induction n with
  | zero => exact absurd hi (Nat.not_lt_zero i)
  | succ n ih =>
    rcases Nat.lt_succ_iff_lt_or_eq.1 hi with hlt | rfl
    · have hshift : 8 * (n + 1 - 1 - i) = 8 * (n - 1 - i) + 8 := by omega
      rw [hshift, bytesWord_extract_high, ih hlt]
    · have hshift : 8 * (i + 1 - 1 - i) = 0 := by omega
      rw [hshift, bytesWord_extract_last]

/-- Byte `i` of buf is bits 191-8i : 184-8i of the data word (R32). -/
theorem bufWord_extract_byte (m : Memory) {i : Nat} (hi : i < 24) :
    (bufWord m).extractLsb' (184 - 8 * i) 8 = memRead m i := by
  have hplace : 184 - 8 * i = 8 * (Config.dataLen - 1 - i) := by simp only [Config.dataLen_eq]; omega
  rw [hplace]
  exact bytesWord_extract_byte (memRead m) hi

theorem outData_of_record {s : State} (hv : s.outValid = true) (hk : s.outKind = .record) :
    outData s = some (bufWord s.buf) := by
  simp [outData, hv, hk]

/-- Settles O29: the held word is the word of buf, whose bytes stand in the places of R32. -/
theorem outDataIsTheBuffer : Obligations.OutDataIsTheBuffer :=
  fun s hv hk => ⟨bufWord s.buf, outData_of_record hv hk, fun _ hi => bufWord_extract_byte s.buf hi⟩

end Sys2Proof.Proofs
end

section
/-! The fields of a Record as numbers: each is the value of its own bytes, in plain arithmetic (R11, R43). -/

namespace Sys2Proof.Proofs

open Sys2Proof Sys2Proof.Machine

/-- In the value of a concatenation that ends in a byte, what stands before the byte counts 256 times. -/
theorem toNat_append_byte {n : Nat} (x : BitVec n) (b : Byte) : (x ++ b).toNat = x.toNat * 256 + b.toNat := by
  rw [BitVec.toNat_append, ← Nat.shiftLeft_add_eq_or_of_lt b.isLt, Nat.shiftLeft_eq]
  rfl

/-- A u32 is the value of its four bytes, the first one the most significant (R11). -/
theorem u32Of_eq (a b c d : Byte) :
    u32Of a b c d = a.toNat * 2 ^ 24 + b.toNat * 2 ^ 16 + c.toNat * 2 ^ 8 + d.toNat := by
  simp only [u32Of, toNat_append_byte]
  omega

/-- An s16 is the value of its two bytes, less 2^16 when the sign bit is set (R11). -/
theorem s16Of_eq (hi lo : Byte) :
    s16Of hi lo = if hi.toNat * 256 + lo.toNat < 0x8000 then ((hi.toNat * 256 + lo.toNat : Nat) : Int)
      else ((hi.toNat * 256 + lo.toNat : Nat) : Int) - 0x10000 := by
  have hsign : 2 * (hi.toNat * 256 + lo.toNat) < 2 ^ 16 ↔ hi.toNat * 256 + lo.toNat < 0x8000 := by omega
  rw [s16Of, BitVec.toInt_eq_toNat_cond, toNat_append_byte]
  exact if_congr hsign rfl rfl

/-- Field `j + 1` stands at place `j` of the vector, so its bytes are `2j + 4` and `2j + 5` (R43). -/
theorem recordList_unpack_succ (d : Nat → Byte) {j : Nat} (hj : j < 10) :
    (recordList (unpack d))[j + 1]? = some (s16Of (d (2 * j + 4)) (d (2 * j + 5))) := by
  simp [recordList, unpack, hj]

/-- Settles O31: each field is the value of its bytes, and field `k` is the one at place `k - 1` of the vector. -/
theorem fieldsAreBigEndian : Obligations.FieldsAreBigEndian := by
  refine fun d => ⟨u32Of_eq (d 0) (d 1) (d 2) (d 3), fun k hlow hhigh => ?_⟩
  obtain ⟨j, rfl⟩ := Nat.exists_eq_add_of_le' hlow
  rw [recordList_unpack_succ d hhigh, s16Of_eq]
  rfl

end Sys2Proof.Proofs
end

section
/-! The decoder on an arbitrary key, ignored bits included: the operation of every key that matches a row of the map (R66, R72), the
keys that are refused (R69), and the ignored data bits of an EOS token (R61). -/

namespace Sys2Proof.Proofs

open Sys2Proof Sys2Proof.Machine

/-! ## The decoder by the kind of the key -/

theorem decode_of_kindIn {k : Key} (h : keyKind k = kindIn) :
    decode k = if keyEos k then decodeEos (keyPhase k) else decodeData (keyPhase k) (keyData k) := by
  simp [decode, h]

theorem decode_of_kindOut {k : Key} (h : keyKind k = kindOut) : decode k = .ok .deliver := by
  simp [decode, h, kindIn, kindOut]

theorem decode_of_kindReset {k : Key} (h : keyKind k = kindReset) : decode k = .ok .reset := by
  simp [decode, h, kindIn, kindOut, kindReset]

theorem decode_of_kindReserved {k : Key} (h : keyKind k = kindReserved) : decode k = .error .reservedKind := by
  simp [decode, h, kindIn, kindOut, kindReset, kindReserved]

/-- The four values of the kind's two bits (R65). -/
theorem kind_cases : ∀ v : BitVec 2, v = kindIn ∨ v = kindOut ∨ v = kindReset ∨ v = kindReserved := by
  decide

/-! ## What a key decodes to -/

/-- A well-formed operation whose operand, if it carries one, is the byte `b`. -/
def TakesByte (b : Byte) (i : Instr) : Prop :=
  wellFormed i = true ∧ ∀ c, i = .skip c ∨ i = .load c ∨ i = .check c → c = b

theorem takesByte_skip {b : Byte} (h : b ≠ Config.syncByte) : TakesByte b (.skip b) :=
  ⟨decide_eq_true h, by simp⟩

theorem decodeData_takesByte {p : Phase} {b : Byte} {i : Instr} (h : decodeData p b = .ok i) : TakesByte b i := by
  cases p with
  | hunt =>
    simp only [decodeData] at h
    split at h <;> cases h
    · exact ⟨rfl, by simp⟩
    · rename_i hb
      exact takesByte_skip hb
  | body => cases h; exact ⟨rfl, by simp⟩
  | check => cases h; exact ⟨rfl, by simp⟩
  | done => cases h

theorem decodeEos_takesByte {p : Phase} {i : Instr} (b : Byte) (h : decodeEos p = .ok i) : TakesByte b i := by
  cases p <;> cases h <;> exact ⟨rfl, by simp⟩

/-- Whatever a key decodes to is well formed, and its only operand is the key's data byte (R66, R72). -/
theorem decode_takesByte {k : Key} {i : Instr} (h : decode k = .ok i) : TakesByte (keyData k) i := by
  obtain hk | hk | hk | hk := kind_cases (keyKind k)
  · rw [decode_of_kindIn hk] at h
    split at h
    · exact decodeEos_takesByte _ h
    · exact decodeData_takesByte h
  · rw [decode_of_kindOut hk] at h
    cases h
    exact ⟨rfl, by simp⟩
  · rw [decode_of_kindReset hk] at h
    cases h
    exact ⟨rfl, by simp⟩
  · rw [decode_of_kindReserved hk] at h
    cases h

/-! ## The rows of the map -/

theorem rowMatches_iff {k : Key} {r : OpRow} :
    rowMatches k r = true ↔ k &&& r.mask = r.fixed ∧ (r.notSync = true → keyData k ≠ Config.syncByte) := by
  cases h : r.notSync <;> simp [rowMatches, h]

/-- A slice of the key that the mask fixes is that slice of the fixed bits. -/
theorem slice_of_masked {k m f : Key} {start len : Nat} (h : k &&& m = f)
    (hm : m.extractLsb' start len = BitVec.allOnes len) : k.extractLsb' start len = f.extractLsb' start len := by
  rw [← h, BitVec.extractLsb'_and, hm, BitVec.and_allOnes]

/-- OUT and RESET keys: the mask 0x1800 fixes the kind. -/
theorem keyKind_of_masked {k f : Key} (h : k &&& 0x1800#13 = f) : keyKind k = keyKind f :=
  slice_of_masked h rfl

/-- IN keys: the mask 0x1F00 fixes the kind, the phase and the end-of-stream mark, and leaves the data byte. -/
theorem decode_of_masked_in {k f : Key} (h : k &&& 0x1F00#13 = f) (hf : keyKind f = kindIn) :
    decode k = if keyEos f then decodeEos (keyPhase f) else decodeData (keyPhase f) (keyData k) := by
  have hkind : keyKind k = keyKind f := slice_of_masked h rfl
  have hphase : keyPhase k = keyPhase f := congrArg phaseOfBits (slice_of_masked h rfl)
  have heos : keyEos k = keyEos f := by simp [keyEos, ← h]
  rw [decode_of_kindIn (hkind.trans hf), hphase, heos]

/-- Every row's mnemonic is that of the operation its keys decode to. -/
theorem decode_of_rowMatches {k : Key} {r : OpRow} (hr : r ∈ opRows) (h : rowMatches k r = true) :
    ∃ i, decode k = .ok i ∧ mnemonicOf i = r.mnemonic := by
  obtain ⟨hfixed, hsync⟩ := rowMatches_iff.1 h
  simp only [opRows, List.mem_cons, List.not_mem_nil, or_false] at hr
  obtain rfl | rfl | rfl | rfl | rfl | rfl | rfl | rfl | rfl := hr
  · exact ⟨.skip (keyData k), (decode_of_masked_in hfixed rfl).trans (if_neg (hsync rfl)), rfl⟩
  · have hkey : k = 0x0041#13 := BitVec.and_allOnes.symm.trans hfixed
    exact ⟨.sync, hkey ▸ rfl, rfl⟩
  · exact ⟨.eosIdle, decode_of_masked_in hfixed rfl, rfl⟩
  · exact ⟨.load (keyData k), decode_of_masked_in hfixed rfl, rfl⟩
  · exact ⟨.eosBody, decode_of_masked_in hfixed rfl, rfl⟩
  · exact ⟨.check (keyData k), decode_of_masked_in hfixed rfl, rfl⟩
  · exact ⟨.eosCheck, decode_of_masked_in hfixed rfl, rfl⟩
  · exact ⟨.deliver, decode_of_kindOut (keyKind_of_masked hfixed), rfl⟩
  · exact ⟨.reset, decode_of_kindReset (keyKind_of_masked hfixed), rfl⟩

/-- Settles O2: a row's fixed bits decide the operation, and the operand is what the decoder gives every operation. -/
theorem matchingRowGivesOperation : Obligations.MatchingRowGivesOperation := by
  intro k r hr h
  obtain ⟨i, hdecode, hname⟩ := decode_of_rowMatches hr h
  obtain ⟨hwf, hoperand⟩ := decode_takesByte hdecode
  exact ⟨i, hdecode, hwf, hname, hoperand⟩

/-! ## The reserved kind -/

theorem decodeData_error {p : Phase} {b : Byte} {e : DecodeError} (h : decodeData p b = .error e) :
    e = .inputWhenDone := by
  cases p with
  | hunt =>
    simp only [decodeData] at h
    split at h <;> cases h
  | body => cases h
  | check => cases h
  | done => cases h; rfl

theorem decodeEos_error {p : Phase} {e : DecodeError} (h : decodeEos p = .error e) : e = .inputWhenDone := by
  cases p <;> cases h
  rfl

/-- An IN key that decodes to nothing is one of a token in DONE (R70 (a)). -/
theorem decode_error_of_kindIn {k : Key} {e : DecodeError} (hk : keyKind k = kindIn) (h : decode k = .error e) :
    e = .inputWhenDone := by
  rw [decode_of_kindIn hk] at h
  split at h
  · exact decodeEos_error h
  · exact decodeData_error h

theorem decode_eq_reservedKind_iff {k : Key} : decode k = .error .reservedKind ↔ keyKind k = kindReserved := by
  refine ⟨fun h => ?_, decode_of_kindReserved⟩
  obtain hk | hk | hk | hk := kind_cases (keyKind k)
  · cases decode_error_of_kindIn hk h
  · rw [decode_of_kindOut hk] at h
    cases h
  · rw [decode_of_kindReset hk] at h
    cases h
  · exact hk

/-- The kind is the key's two top bits, so its number is what remains above the eleven others. -/
theorem keyKind_toNat (k : Key) : (keyKind k).toNat = k.toNat / 2 ^ 11 := by
  have hk : k.toNat < 2 ^ 13 := k.isLt
  rw [keyKind, BitVec.extractLsb'_toNat, Nat.shiftRight_eq_div_pow]
  omega

/-- The reserved kind has the keys 0x1800 to 0x1FFF (R69). -/
theorem keyKind_eq_reserved_iff {k : Key} : keyKind k = kindReserved ↔ 0x1800 ≤ k.toNat := by
  have hk : k.toNat < 2 ^ 13 := k.isLt
  have hkind : kindReserved.toNat = 3 := rfl
  rw [← BitVec.toNat_inj, keyKind_toNat, hkind]
  omega

/-- Settles O5: the reserved keys are those whose kind has both bits set. -/
theorem reservedKindIsRefused : Obligations.ReservedKindIsRefused :=
  ⟨fun _ => decode_eq_reservedKind_iff.trans keyKind_eq_reserved_iff, fun _ _ hp => step_of_reserved hp⟩

/-! ## The data bits of an EOS token -/

/-- A ready block ends the session on any EOS token, whatever its data bits (R61, R82, R91, R104). -/
theorem step_eos_of_ready {s : State} {b : Byte} {rest : List Txn}
    (hp : s.pending = .inp { eos := true, data := b } :: rest) (hr : inReady s = true) :
    step s = .next (endSession (consume s)) := by
  obtain ⟨hs, hv⟩ := inReady_iff.1 hr
  rw [step_of_eos hp]
  cases hphase : s.phase with
  | hunt => exact whenIn_of_enabled (inEnabled_iff.2 ⟨hphase, hv⟩) _
  | body => exact whenIn_of_enabled (inEnabled_iff.2 ⟨hphase, hv⟩) _
  | check => exact whenIn_of_enabled (inEnabled_iff.2 ⟨hphase, hv⟩) _
  | done => exact absurd hphase hs

/-- Settles O6: an EOS token decodes by the phase alone, and the state it leads to no longer holds the token. -/
theorem eosDataBitsAreIgnored : Obligations.EosDataBitsAreIgnored := by
  refine ⟨fun p d => ?_, fun s d rest hr => ?_⟩
  · rw [decode_keyOf_inp, decode_keyOf_inp, if_pos rfl, if_pos rfl]
  · have hstep : ∀ b : Byte, step { s with pending := .inp { eos := true, data := b } :: rest }
        = .next (endSession { s with pending := rest }) := fun b => step_eos_of_ready rfl hr
    rw [hstep, hstep]

end Sys2Proof.Proofs
end

section
/-! The fields of a Record as slices of the output port's data word (R64). -/

namespace Sys2Proof.Proofs

open Sys2Proof Sys2Proof.Machine

/-- A slice that begins above the bytes from `m` on is a slice of the first `m` bytes. -/
theorem bytesWord_extract_above (d : Nat → Byte) {m n : Nat} (hmn : m ≤ n) (l : Nat) :
    (bytesWord d n).extractLsb' (8 * (n - m)) l = (bytesWord d m).extractLsb' 0 l := by
  induction n, hmn using Nat.le_induction with
  | base => rw [Nat.sub_self]
  | succ n hmn ih =>
    have hshift : 8 * (n + 1 - m) = 8 * (n - m) + 8 := by omega
    rw [hshift, bytesWord_extract_high, ih]

/-- The value of the first four bytes (R11). -/
theorem bytesWord_four_toNat (d : Nat → Byte) : (bytesWord d 4).toNat = u32Of (d 0) (d 1) (d 2) (d 3) := by
  simp [bytesWord, u32Of]

/-- f0 is bits 191:160 of the data word (R64). -/
theorem wordField0_bufWord (m : Memory) : wordField0 (bufWord m) = (unpack (memRead m)).f0 := by
  have hslice : (bufWord m).extractLsb' (16 * Config.nS16) 32 = bytesWord (memRead m) 4 :=
    (bytesWord_extract_above (m := 4) (n := Config.dataLen) (memRead m) (by decide) 32).trans BitVec.extractLsb'_eq_self
  rw [wordField0, hslice, bytesWord_four_toNat]
  rfl

/-- Field `j + 1` is bits `16*(10-(j+1))+15 : 16*(10-(j+1))` of the data word (R64), the bytes `2j + 4` and `2j + 5`. -/
theorem wordField_bufWord (m : Memory) {j : Nat} (hj : j < 10) :
    wordField (bufWord m) (j + 1) = s16Of (memRead m (2 * j + 4)) (memRead m (2 * j + 5)) := by
  have hlen : 2 * j + 4 + 2 ≤ Config.dataLen := by simp only [Config.dataLen_eq]; omega
  have hshift : 16 * (Config.nS16 - (j + 1)) = 8 * (Config.dataLen - (2 * j + 4 + 2)) := by
    simp only [Config.nS16_eq, Config.dataLen_eq]; omega
  rw [wordField, bufWord, hshift, bytesWord_extract_above (memRead m) hlen, bytesWord_extract_last_two]
  rfl

/-- The signed fields in order, each from its own two bytes (R43). -/
theorem unpack_fs_toList (d : Nat → Byte) :
    (unpack d).fs.toList = (List.range 10).map fun j => s16Of (d (2 * j + 4)) (d (2 * j + 5)) := by
  rw [unpack, Vector.toList_ofFn, List.ofFn_eq_map, ← List.map_coe_finRange_eq_range, List.map_map]
  rfl

/-- Settles O30: field by field. -/
theorem fieldsAreSlicesOfOutData : Obligations.FieldsAreSlicesOfOutData := by
  intro m
  have hfields : (unpack (memRead m)).fs.toList = (List.range 10).map fun j => wordField (bufWord m) (j + 1) := by
    rw [unpack_fs_toList]
    exact List.map_congr_left fun j hj => (wordField_bufWord m (List.mem_range.1 hj)).symm
  rw [recordList, ← wordField0_bufWord, hfields]
  rfl

end Sys2Proof.Proofs
end

section
/-! The synchronizer's operations, and the three ends of a session, in a state where they are enabled (R80 to R82, R91, R104). -/

namespace Sys2Proof.Proofs

open Sys2Proof Sys2Proof.Machine

/-- An IN operation of the present phase, with no outcome held, acts on the state with its token consumed. -/
theorem whenIn_of_phase {p : Phase} {s : State} (hp : s.phase = p) (hv : s.outValid = false) (act : State → Result) :
    whenIn p s act = act (consume s) :=
  whenIn_of_enabled (inEnabled_iff.2 ⟨hp, hv⟩) act

/-- In an ended session no token is accepted (R31). -/
theorem inReady_of_done {s : State} (hs : s.phase = .done) : inReady s = false :=
  Bool.eq_false_iff.2 fun hr => (inReady_iff.1 hr).1 hs

/-- In each phase with an input operation, that phase's EOS consumes its token and ends the session. -/
theorem exec_eos_of_phase {s : State} {i : Instr} (hv : s.outValid = false)
    (hi : s.phase = .hunt ∧ i = .eosIdle ∨ s.phase = .body ∧ i = .eosBody ∨ s.phase = .check ∧ i = .eosCheck) :
    exec i s = .next (endSession (consume s)) := by
  have hend : ∀ {p : Phase}, s.phase = p →
      whenIn p s (fun u => .next (endSession u)) = .next (endSession (consume s)) :=
    fun hp => whenIn_of_phase hp hv _
  obtain ⟨hp, rfl⟩ | ⟨hp, rfl⟩ | ⟨hp, rfl⟩ := hi
  · exact hend hp
  · exact hend hp
  · exact hend hp

/-- In HUNT, with no outcome held, SYNC consumes its token and opens a frame. -/
theorem exec_sync_of_hunt {s : State} (hp : s.phase = .hunt) (hv : s.outValid = false) :
    exec .sync s = .next { consume s with phase := .body, cnt := 0#Config.cntWidth, crc := Config.crcInit } :=
  whenIn_of_phase hp hv fun u => .next { u with phase := .body, cnt := 0#Config.cntWidth, crc := Config.crcInit }

/-- Settles O14: a byte other than the sentinel reaches SKIP's own action, which is to consume the token. -/
theorem skipDiscardsTheByte : Obligations.SkipDiscardsTheByte := by
  intro s b hp hv hb
  have hexec : exec (.skip b) s = whenIn .hunt s .next := if_neg hb
  have hready : inReady s = true := inReady_iff.2 ⟨by rw [hp]; decide, hv⟩
  exact ⟨hexec.trans (whenIn_of_phase hp hv _), hready⟩

/-- Settles O15: SYNC is enabled, and the frame it opens is one the block is ready for. -/
theorem syncOpensAFrame : Obligations.SyncOpensAFrame := by
  intro s hp hv
  exact ⟨_, exec_sync_of_hunt hp hv, inReady_iff.2 ⟨Phase.noConfusion, hv⟩, rfl⟩

/-- Settles O16: each of the three answers the consumed state with its session ended. -/
theorem endOfStreamEndsTheSession : Obligations.EndOfStreamEndsTheSession := by
  intro s i hv hi
  exact ⟨_, exec_eos_of_phase hv hi, decide_eq_true rfl, inReady_of_done rfl, rfl⟩

end Sys2Proof.Proofs
end

section
/-! LOAD in BODY, with no outcome held and `cnt` within the payload (R90). -/

namespace Sys2Proof.Proofs

open Sys2Proof Sys2Proof.Machine

/-- In BODY, with no outcome held, LOAD consumes its token and captures the byte. -/
theorem exec_load_of_body {s : State} (b : Byte) (hp : s.phase = .body) (hv : s.outValid = false) :
    exec (.load b) s = .next (loadByte b (consume s)) :=
  whenIn_of_phase hp hv fun u => .next (loadByte b u)

/-- The index LOAD writes at is the last one exactly while `cnt` is 23 (R90). -/
theorem loadIndex_eq_last_iff {s : State} : loadIndex s = Config.dataLen - 1 ↔ s.cnt = 23#5 :=
  BitVec.toNat_inj (x := s.cnt) (y := 23#5)

/-- The phase after a LOAD in BODY: CHECK once the 24th data byte is taken, tested on the old `cnt` (R90). -/
theorem loadByte_phase_of_body {s : State} (b : Byte) (hp : s.phase = .body) :
    (loadByte b s).phase = if s.cnt = 23#5 then .check else .body := by
  rw [loadByte_phase, hp]
  exact if_congr loadIndex_eq_last_iff rfl rfl

/-- A LOAD in BODY does not end the session. -/
theorem loadByte_phase_ne_done {s : State} (b : Byte) (hp : s.phase = .body) : (loadByte b s).phase ≠ .done := by
  rw [loadByte_phase_of_body b hp]
  split
  · exact Phase.noConfusion
  · exact Phase.noConfusion

/-- Settles O17: with `cnt` below 24 the write reaches buf and the counter does not wrap. -/
theorem loadCapturesTheByte : Obligations.LoadCapturesTheByte := by
  intro s b hp hv hcnt
  have hlt : s.cnt.toNat < Config.dataLen := Nat.lt_succ_of_le hcnt
  have hready : inReady (loadByte b (consume s)) = true := inReady_iff.2 ⟨loadByte_phase_ne_done b hp, hv⟩
  exact ⟨_, exec_load_of_body b hp hv, memRead_memWrite_same s.buf b hlt, fun _ hi => memRead_memWrite_ne s.buf b hi,
    rfl, count_succ hlt, loadByte_phase_of_body b hp, hv, hready, rfl, rfl, rfl, rfl⟩

end Sys2Proof.Proofs
end

section
/-! CHECK in phase CHECK, with no outcome held (R103). -/

namespace Sys2Proof.Proofs

open Sys2Proof Sys2Proof.Machine

/-- While an outcome is held no token is accepted (R31). -/
theorem inReady_of_held {s : State} (hv : s.outValid = true) : inReady s = false :=
  Bool.eq_false_iff.2 fun hr => Bool.false_ne_true ((inReady_iff.1 hr).2.symm.trans hv)

/-- In CHECK, with no outcome held, CHECK consumes its token, holds the outcome the comparison gives and returns to HUNT. -/
theorem exec_check_of_check {s : State} (c : Byte) (hp : s.phase = .check) (hv : s.outValid = false) :
    exec (.check c) s
      = .next { emit (if c = s.crc then .record else .corrupt) (consume s) with
                phase := .hunt, cnt := 0#Config.cntWidth } := by
  have hexec : exec (.check c) s
      = .next { emit (checkKind c (consume s)) (consume s) with phase := .hunt, cnt := 0#Config.cntWidth } :=
    whenIn_of_phase hp hv fun u => .next { emit (checkKind c u) u with phase := .hunt, cnt := 0#Config.cntWidth }
  rw [hexec, checkKind_consume, checkKind_eq]

/-- Settles O19: the outcome held closes the input port, and its data, on a matching byte, are buf, which CHECK leaves alone. -/
theorem checkHoldsTheOutcome : Obligations.CheckHoldsTheOutcome := by
  intro s c hp hv
  exact ⟨_, exec_check_of_check c hp hv, rfl, inReady_of_held rfl, fun hc => outData_of_record rfl (if_pos hc)⟩

end Sys2Proof.Proofs
end

section
/-! DELIVER with an outcome held (R120). -/

namespace Sys2Proof.Proofs

open Sys2Proof Sys2Proof.Machine

/-- With an outcome held, OUT is enabled: DELIVER consumes the transaction and hands the outcome over. -/
theorem exec_deliver_of_held {s : State} (hv : s.outValid = true) :
    exec .deliver s = .next (handOver (consume s)) :=
  if_pos hv

/-- With the outcome handed over, a live session is ready for the next token (R31). -/
theorem inReady_handOver {s : State} (hs : s.phase ≠ .done) : inReady (handOver s) = true :=
  inReady_iff.2 ⟨hs, handOver_outValid s⟩

/-- Settles O20: the outcome handed over is the one held before the transaction was consumed, and HUNT is a live phase. -/
theorem deliverHandsOverTheOutcome : Obligations.DeliverHandsOverTheOutcome := by
  intro s hv
  have hready (hp : s.phase = .hunt) : inReady (handOver (consume s)) = true :=
    inReady_handOver (by rw [consume_phase, hp]; exact Phase.noConfusion)
  exact ⟨_, exec_deliver_of_held hv, rfl, hready⟩

end Sys2Proof.Proofs
end

section
/-! The state after reset (R151), and the byte 0x41 inside a frame (R161). -/

namespace Sys2Proof.Proofs

open Sys2Proof Sys2Proof.Machine

/-! ## The reset state -/

/-- The `done` port is 0 exactly in a live session. -/
theorem done_eq_false_iff {s : State} : done s = false ↔ s.phase ≠ .done :=
  decide_eq_false_iff_not

/-- Settles O38: the registers have their values by definition, and the two signals follow from HUNT with nothing held. -/
theorem resetState : Obligations.ResetState := by
  have hlive : State.reset.phase ≠ .done := Phase.noConfusion
  have hready : inReady State.reset = true := inReady_iff.2 ⟨hlive, rfl⟩
  exact ⟨rfl, rfl, rfl, rfl, hready, done_eq_false_iff.2 hlive⟩

/-! ## Data tokens inside a frame -/

/-- In BODY a data token's step is LOAD of its byte, whichever byte that is. -/
theorem step_data_of_body {s : State} {b : Byte} {rest : List Txn}
    (hp : s.pending = .inp { eos := false, data := b } :: rest) (hs : s.phase = .body) :
    step s = exec (.load b) s := by
  rw [step_of_data hp, hs]
  rfl

/-- In CHECK a data token's step is CHECK of its byte, whichever byte that is. -/
theorem step_data_of_check {s : State} {b : Byte} {rest : List Txn}
    (hp : s.pending = .inp { eos := false, data := b } :: rest) (hs : s.phase = .check) :
    step s = exec (.check b) s := by
  rw [step_of_data hp, hs]
  rfl

/-- Settles O48: only HUNT tells the sentinel from other bytes; BODY and CHECK take 0x41 as they take any byte. -/
theorem sentinelInsideAFrameIsData : Obligations.SentinelInsideAFrameIsData :=
  fun _ _ hp => ⟨step_data_of_body hp, step_data_of_check hp⟩

end Sys2Proof.Proofs
end

section
/-! The key as a word of four fields, and the decoder read backwards: every operation's key decodes to it (R65), a key matches exactly
the row of the operation it decodes to (R67, R68), and a placed key is the one the next step runs (log entry 9). -/

namespace Sys2Proof.Proofs

open Sys2Proof Sys2Proof.Machine

/-! ## Decoding what was encoded -/

/-- Settles O1: an operation's key is that of a transaction in the operation's phase, and SKIP's byte is not the sentinel. -/
theorem decodeOfEncode : Obligations.DecodeOfEncode := by
  intro i hwf
  cases i with
  | skip b =>
    have hb : b ≠ Config.syncByte := of_decide_eq_true hwf
    exact (decode_keyOf_inp .hunt { eos := false, data := b }).trans (if_neg hb)
  | sync => exact decode_keyOf_inp .hunt { eos := false, data := Config.syncByte }
  | eosIdle => exact decode_keyOf_inp .hunt { eos := true, data := 0#8 }
  | load b => exact decode_keyOf_inp .body { eos := false, data := b }
  | eosBody => exact decode_keyOf_inp .body { eos := true, data := 0#8 }
  | check b => exact decode_keyOf_inp .check { eos := false, data := b }
  | eosCheck => exact decode_keyOf_inp .check { eos := true, data := 0#8 }
  | deliver => exact decode_keyOf_out .hunt
  | reset => exact decode_keyOf_reset .hunt

/-- Settles O7: each key is written out in full, and the decoder is evaluated at it. -/
theorem sampleKeysDecode : Obligations.SampleKeysDecode := by
  unfold Obligations.SampleKeysDecode
  decide

/-! ## Words and their fields -/

/-- The end-of-stream mark of a token word, as a slice of it (R60). -/
theorem ofBool_tokenMark (w : BitVec 9) : BitVec.ofBool (w.getLsbD 8) = w.extractLsb' 8 1 := by
  ext i hi
  obtain rfl : i = 0 := by omega
  simp

/-- Settles O8: the mark is the bit above the data byte, in both directions. -/
theorem tokenWordRoundTrip : Obligations.TokenWordRoundTrip := by
  refine ⟨fun t => ?_, fun w => ?_⟩
  · have heos : (tokenWord t).getLsbD 8 = t.eos := BitVec.getLsbD_append.trans (by simp)
    have hdata : (tokenWord t).extractLsb' 0 8 = t.data := extract_append_last _ _
    exact congrArg₂ Token.mk heos hdata
  · have hword : w.extractLsb' 8 1 ++ w.extractLsb' 0 8 = w := BitVec.extractLsb'_append_extractLsb'
    rw [tokenWord, tokenOfWord, ofBool_tokenMark]
    exact hword

/-! ## The row of a key -/

/-- A mask acts on each field of a key by itself. -/
theorem mkKey_and (k k' p p' : BitVec 2) (e e' : Bool) (d d' : Byte) :
    mkKey k p e d &&& mkKey k' p' e' d' = mkKey (k &&& k') (p &&& p') (e && e') (d &&& d') := by
  have hhigh : k ++ p ++ BitVec.ofBool e &&& k' ++ p' ++ BitVec.ofBool e'
      = (k &&& k') ++ (p &&& p') ++ BitVec.ofBool (e && e') := by
    rw [BitVec.and_append, BitVec.and_append, BitVec.ofBool_and_ofBool]
  exact BitVec.and_append.trans (congrArg (· ++ (d &&& d')) hhigh)

/-- The mask 0x1F00 clears the data byte and keeps the rest. -/
theorem mkKey_and_mask_in (k p : BitVec 2) (e : Bool) (d : Byte) : mkKey k p e d &&& 0x1F00#13 = mkKey k p e 0#8 := by
  have hmask : 0x1F00#13 = mkKey (BitVec.allOnes 2) (BitVec.allOnes 2) true 0#8 := by decide
  rw [hmask, mkKey_and, BitVec.and_allOnes, BitVec.and_allOnes, Bool.and_true, BitVec.and_zero]

/-- The mask 0x1800 keeps the kind alone. -/
theorem mkKey_and_mask_kind (k p : BitVec 2) (e : Bool) (d : Byte) :
    mkKey k p e d &&& 0x1800#13 = mkKey k 0#2 false 0#8 := by
  have hmask : 0x1800#13 = mkKey (BitVec.allOnes 2) 0#2 false 0#8 := by decide
  rw [hmask, mkKey_and, BitVec.and_allOnes, BitVec.and_zero, Bool.and_false, BitVec.and_zero]

/-- A data token's key matches a row, in every phase of a live session. -/
theorem exists_row_of_data {p : Phase} (hp : p ≠ .done) (b : Byte) :
    ∃ r ∈ opRows, rowMatches (keyOf p (.inp { eos := false, data := b })) r = true := by
  have hmask : ∀ q, mkKey kindIn (phaseBits q) false b &&& 0x1F00#13 = mkKey kindIn (phaseBits q) false 0#8 :=
    fun q => mkKey_and_mask_in kindIn (phaseBits q) false b
  cases p with
  | hunt =>
    by_cases hb : b = Config.syncByte
    · exact ⟨opRows[1], by decide, by subst hb; decide⟩
    · exact ⟨opRows[0], by decide, rowMatches_iff.2 ⟨hmask .hunt, fun _ => by rwa [keyOf, keyData_mkKey]⟩⟩
  | body => exact ⟨opRows[3], by decide, rowMatches_iff.2 ⟨hmask .body, nofun⟩⟩
  | check => exact ⟨opRows[5], by decide, rowMatches_iff.2 ⟨hmask .check, nofun⟩⟩
  | done => exact absurd rfl hp

/-- An EOS token's key matches a row, in every phase of a live session and with any data bits. -/
theorem exists_row_of_eos {p : Phase} (hp : p ≠ .done) (b : Byte) :
    ∃ r ∈ opRows, rowMatches (keyOf p (.inp { eos := true, data := b })) r = true := by
  have hmask : ∀ q, mkKey kindIn (phaseBits q) true b &&& 0x1F00#13 = mkKey kindIn (phaseBits q) true 0#8 :=
    fun q => mkKey_and_mask_in kindIn (phaseBits q) true b
  cases p with
  | hunt => exact ⟨opRows[2], by decide, rowMatches_iff.2 ⟨hmask .hunt, nofun⟩⟩
  | body => exact ⟨opRows[4], by decide, rowMatches_iff.2 ⟨hmask .body, nofun⟩⟩
  | check => exact ⟨opRows[6], by decide, rowMatches_iff.2 ⟨hmask .check, nofun⟩⟩
  | done => exact absurd rfl hp

/-- The key of an enabled transaction matches a row of the map (R68). -/
theorem exists_row_of_enabled {s : State} {t : Txn} (he : enabled t s = true) :
    ∃ r ∈ opRows, rowMatches (keyOf s.phase t) r = true := by
  cases t with
  | inp tok =>
    obtain ⟨eos, b⟩ := tok
    have hs : s.phase ≠ .done := (inReady_iff.1 he).1
    cases eos with
    | false => exact exists_row_of_data hs b
    | true => exact exists_row_of_eos hs b
  | out => exact ⟨opRows[7], by decide, rowMatches_iff.2 ⟨mkKey_and_mask_kind kindOut _ _ _, nofun⟩⟩
  | reset => exact ⟨opRows[8], by decide, rowMatches_iff.2 ⟨mkKey_and_mask_kind kindReset _ _ _, nofun⟩⟩
  | reserved => cases he

/-- No two rows bear one name. -/
theorem opRows_eq_of_mnemonic : ∀ r ∈ opRows, ∀ r' ∈ opRows, r.mnemonic = r'.mnemonic → r = r' := by
  decide

/-- The rows a key matches bear the name of what it decodes to, and so are one row (R67). -/
theorem row_unique {k : Key} {r r' : OpRow} (hr : r ∈ opRows) (hr' : r' ∈ opRows) (h : rowMatches k r = true)
    (h' : rowMatches k r' = true) : r = r' := by
  obtain ⟨i, hi, hname⟩ := decode_of_rowMatches hr h
  obtain ⟨i', hi', hname'⟩ := decode_of_rowMatches hr' h'
  cases hi.symm.trans hi'
  exact opRows_eq_of_mnemonic r hr r' hr' (hname.symm.trans hname')

/-- Settles O3: a key decodes to one operation, whose name only one row bears. -/
theorem rowsAreDisjoint : Obligations.RowsAreDisjoint :=
  ⟨fun _ _ _ hr hr' h h' => row_unique hr hr' h h', rfl⟩

/-- Settles O4: the row is found by the transaction's phase and token, and every row the key matches is that one. -/
theorem enabledTransactionHasOneRow : Obligations.EnabledTransactionHasOneRow := by
  intro s t he
  obtain ⟨r, hr, hmatch⟩ := exists_row_of_enabled he
  obtain ⟨i, hdecode, hname⟩ := decode_of_rowMatches hr hmatch
  refine ⟨i, r, hdecode, (decode_takesByte hdecode).1, hr, hname.symm, fun r' hr' => ⟨fun h => ?_, fun h => ?_⟩⟩
  · exact row_unique hr' hr h hmatch
  · exact h ▸ hmatch

/-! ## Decoding and running what is offered -/

/-- A step runs the operation the first transaction decodes to. -/
theorem step_of_decode {s : State} {t : Txn} {rest : List Txn} {i : Instr} (hp : s.pending = t :: rest)
    (hd : decode (keyOf s.phase t) = .ok i) : step s = exec i s := by
  rw [step_of_cons hp, hd]

/-- Settles O9: what a step does is decided by the first transaction offered, and with none it waits. -/
theorem stepRunsTheDecodedOperation : Obligations.StepRunsTheDecodedOperation :=
  ⟨fun _ _ _ _ => step_of_decode, fun _ => step_of_nil⟩

/-- A number of at least 13 bits that a key gives is that key. -/
theorem keyOfNat_toNat {nbits : Nat} (hn : 13 ≤ nbits) (k : Key) : keyOfNat nbits k.toNat = some k := by
  have hk : k.toNat < 2 ^ 13 := k.isLt
  have hmod : k.toNat % 2 ^ nbits = k.toNat := Nat.mod_eq_of_lt (hk.trans_le (Nat.pow_le_pow_right Nat.two_pos hn))
  rw [keyOfNat, hmod, if_pos hk, BitVec.ofNat_toNat, BitVec.setWidth_eq]

theorem decodeTableWord_toNat {nbits : Nat} (hn : 13 ≤ nbits) {k : Key} {i : Instr} (h : decode k = .ok i) :
    decodeTableWord nbits k.toNat = some i := by
  simp [decodeTableWord, keyOfNat_toNat hn k, h]

/-- Placing a key's table word offers its transaction (log entry 9). -/
theorem withFetchWord_toNat (s : State) (k : Key) : s.withFetchWord 13 k.toNat = offerKey s k := by
  rw [State.withFetchWord, keyOfNat_toNat (Nat.le_refl 13)]

/-- The step after placing a key runs the key's operation: an IN key's phase is the state's, and OUT and RESET decode in every
phase. -/
theorem step_offerKey {k : Key} {i : Instr} (s : State) (h : decode k = .ok i) :
    step (offerKey s k) = exec i (offerKey s k) := by
  obtain hk | hk | hk | hk := kind_cases (keyKind k)
  · have htxn : txnOfKey k = .inp { eos := keyEos k, data := keyData k } := if_pos hk
    have hkey : decode (keyOf (keyPhase k) (.inp { eos := keyEos k, data := keyData k })) = .ok i := by
      rw [decode_keyOf_inp, ← h, decode_of_kindIn hk]
    rw [offerKey, htxn]
    exact step_of_decode rfl hkey
  · have htxn : txnOfKey k = .out := by simp [txnOfKey, hk, kindIn, kindOut]
    cases (decode_of_kindOut hk).symm.trans h
    rw [offerKey, htxn]
    exact step_of_out rfl
  · have htxn : txnOfKey k = .reset := by simp [txnOfKey, hk, kindIn, kindOut, kindReset]
    cases (decode_of_kindReset hk).symm.trans h
    rw [offerKey, htxn]
    exact step_of_reset rfl
  · cases (decode_of_kindReserved hk).symm.trans h

/-- Settles O10: the table word is the key, in 13 bits as in 16, and the placed transaction is the next one. -/
theorem placedWordIsRun : Obligations.PlacedWordIsRun := by
  intro s k i h
  rw [withFetchWord_toNat]
  exact ⟨decodeTableWord_toNat (by decide) h, decodeTableWord_toNat (by decide) h, step_offerKey s h⟩

end Sys2Proof.Proofs
end

section
/-! The invariants of R34: they hold at the reset state and every operation keeps them, so every step does. -/

namespace Sys2Proof.Proofs

open Sys2Proof Sys2Proof.Machine

/-! ## The canonical form of buf -/

/-- Only LOAD writes buf, and a write keeps its form. -/
theorem memWf_of_stepTo {s t : State} (h : StepTo s t) (hm : memWf s.buf = true) : memWf t.buf = true := by
  cases h with
  | load b rest hp hs hv => exact memWf_memWrite (loadIndex s) b hm
  | _ => exact hm

/-- Settles O41: a step is one of the operations, or a hold. -/
theorem bufferFormKeptByEveryStep : Obligations.BufferFormKeptByEveryStep :=
  fun _ _ hm h => memWf_of_stepTo (step_next h) hm

/-! ## The invariants of each state an operation leads to -/

/-- Between frames with nothing held, only the form of buf is left to say. -/
theorem blockInv_of_idle {s : State} (hm : memWf s.buf = true) (hs : s.phase = .hunt) (hc : s.cnt = 0#Config.cntWidth)
    (hv : s.outValid = false) : BlockInv s where
  memory := hm
  count := by simp [hc]
  hunt := fun _ => hc
  body := by simp [hs]
  check := by simp [hs]
  captured := by simp [hs]
  crc := by simp [hs]
  held := fun _ => hs
  ended := fun _ => hv
  recordWritten := by simp [hv]
  recordCrc := by simp [hv]

/-- Settles O39: the reset state is idle, and buf lists nothing. -/
theorem invariantAtReset : Obligations.InvariantAtReset :=
  blockInv_of_idle rfl rfl rfl rfl

/-- No invariant speaks of the transactions offered. -/
theorem blockInv_consume {s : State} (h : BlockInv s) : BlockInv (consume s) := { h with }

/-- SYNC: no byte is captured yet, and the CRC of none is CRC_INIT. -/
theorem blockInv_openFrame {s : State} (h : BlockInv s) (hv : s.outValid = false) :
    BlockInv { s with phase := .body, cnt := 0#Config.cntWidth, crc := Config.crcInit } where
  memory := h.memory
  count := by simp
  hunt := by simp
  body := by simp
  check := by simp
  captured := by simp [writtenTo]
  crc := by simp [Config.crcInit]
  held := by simp [hv]
  ended := by simp
  recordWritten := by simp [hv]
  recordCrc := by simp [hv]

/-- EOS: the counter and buf stay, and an ended session holds nothing. -/
theorem blockInv_endSession {s : State} (h : BlockInv s) (hv : s.outValid = false) : BlockInv (endSession s) where
  memory := h.memory
  count := h.count
  hunt := by simp
  body := by simp
  check := by simp
  captured := by simp
  crc := by simp
  held := by simp [hv]
  ended := fun _ => hv
  recordWritten := by simp [hv]
  recordCrc := by simp [hv]

/-- A write at `n` extends the bytes written so far by one. -/
theorem writtenTo_memWrite {m : Memory} {n : Nat} (b : Byte) (hn : n < Config.dataLen) (h : writtenTo m n) :
    writtenTo (memWrite m n b) (n + 1) := by
  intro i hi
  by_cases hin : i = n
  · rw [hin, memRead?_memWrite_same m b hn, Option.isSome_some]
  · rw [memRead?_memWrite_ne m b hin]
    exact h i (by omega)

/-- LOAD: one more byte is written and folded into the CRC, and CHECK follows the 24th. -/
theorem blockInv_loadByte {s : State} (b : Byte) (h : BlockInv s) (hs : s.phase = .body) (hv : s.outValid = false) :
    BlockInv (loadByte b s) := by
  have hlt : s.cnt.toNat < Config.dataLen := h.body hs
  have hcnt : (loadByte b s).cnt.toNat = s.cnt.toNat + 1 := count_succ hlt
  have hphase : (loadByte b s).phase = if s.cnt.toNat = Config.dataLen - 1 then .check else .body := by
    rw [loadByte_phase, hs]; rfl
  exact {
    memory := memWf_memWrite _ b h.memory
    count := by omega
    hunt := fun hhunt => by
      rw [hphase] at hhunt
      split at hhunt <;> cases hhunt
    body := fun hbody => by
      rw [hphase] at hbody
      split at hbody
      · cases hbody
      · omega
    check := fun hcheck => by
      have hlast : s.cnt.toNat + 1 = Config.dataLen := by
        rw [hphase] at hcheck
        split at hcheck
        · omega
        · cases hcheck
      exact hcnt.trans hlast
    captured := fun _ => by rw [hcnt]; exact writtenTo_memWrite b hlt (h.captured (.inl hs))
    crc := fun _ => by
      rw [hcnt, loadByte_crc, loadByte_buf, loadIndex, memPrefix_memWrite _ b hlt, crc8_append_one, h.crc (.inl hs)]
    held := by simp [hv]
    ended := fun _ => hv
    recordWritten := by simp [hv]
    recordCrc := by simp [hv] }

/-- CHECK: the 24 bytes have been written, and their CRC is the register compared with. -/
theorem blockInv_emit {s : State} (k : OutKind) (h : BlockInv s) (hs : s.phase = .check) :
    BlockInv { emit k s with phase := .hunt, cnt := 0#Config.cntWidth } := by
  have hcnt : s.cnt.toNat = Config.dataLen := h.check hs
  exact {
    memory := h.memory
    count := by simp
    hunt := fun _ => rfl
    body := by simp
    check := by simp
    captured := by simp
    crc := by simp
    held := fun _ => rfl
    ended := by simp
    recordWritten := fun _ _ => hcnt ▸ h.captured (.inr hs)
    recordCrc := fun _ _ => hcnt ▸ h.crc (.inr hs) }

/-- DELIVER: an outcome is held in HUNT only, so what it leaves is an idle state. -/
theorem blockInv_handOver {s : State} (h : BlockInv s) (hv : s.outValid = true) : BlockInv (handOver s) :=
  blockInv_of_idle h.memory (h.held hv) (h.hunt (h.held hv)) rfl

/-- Settles O40: each operation keeps the invariants, and so does taking its transaction. -/
theorem invariantKeptByEveryStep : Obligations.InvariantKeptByEveryStep := by
  intro s t hs h
  have hc : BlockInv (consume s) := blockInv_consume hs
  cases step_next h with
  | stay => exact hs
  | skip => exact hc
  | sync rest hp hphase hv => exact blockInv_openFrame hc hv
  | load b rest hp hphase hv => exact blockInv_loadByte b hc hphase hv
  | check b rest hp hphase hv => exact blockInv_emit _ hc hphase
  | eos b rest hp hphase hv => exact blockInv_endSession hc hv
  | deliver rest hp hv => exact blockInv_handOver hc hv
  | reset => exact blockInv_of_idle hs.memory rfl rfl rfl

end Sys2Proof.Proofs
end

section
/-! What the environment sees of one step: which transactions are taken and what each hands over (R30, R49, R51, R123), what changes the
status flags (R27, R48), how a session is left (R155), and the transactions a sample of the ports brings about (R28, R29, R133). -/

namespace Sys2Proof.Proofs

open Sys2Proof Sys2Proof.Machine

/-! ## The step of an enabled and of a held transaction -/

/-- With an outcome held, OUT is taken and the outcome handed over. -/
theorem step_out_of_held {s : State} {rest : List Txn} (hp : s.pending = .out :: rest) (hv : s.outValid = true) :
    step s = .next (handOver (consume s)) :=
  (step_of_out hp).trans (exec_deliver_of_held hv)

/-- A token hands nothing to the sink. -/
theorem delivered_of_step_inp {s t : State} {tok : Token} {rest : List Txn} (hp : s.pending = .inp tok :: rest)
    (h : step s = .next t) : t.delivered = s.delivered := by
  cases step_next h with
  | deliver rest' hp' hv => cases hp.symm.trans hp'
  | _ => rfl

/-- An enabled transaction is taken, alone, and hands over its outcome and nothing else (R30). -/
theorem step_of_enabled {s : State} {h : Txn} {rest : List Txn} (hp : s.pending = h :: rest) (he : enabled h s = true) :
    ∃ t, step s = .next t ∧ t.pending = rest ∧ t.delivered = s.delivered ++ (txnOutcome s h).toList := by
  have htail : s.pending.tail = rest := by rw [hp, List.tail_cons]
  cases h with
  | inp tok =>
    obtain ⟨t, ht, hpending⟩ := step_inp_of_ready hp he
    exact ⟨t, ht, hpending, by simp [delivered_of_step_inp hp ht]⟩
  | out => exact ⟨_, step_out_of_held hp he, htail, by simp [txnOutcome_out, show s.outValid = true from he]⟩
  | reset => exact ⟨_, step_of_reset hp, htail, by simp⟩
  | reserved => cases he

/-- A transaction that is not enabled is held: nothing changes (R70; log entry 2). -/
theorem step_of_not_enabled {s : State} {h : Txn} {rest : List Txn} (hp : s.pending = h :: rest) (hr : h ≠ .reserved)
    (he : enabled h s = false) : step s = .next s := by
  cases h with
  | inp tok => exact step_inp_of_not_ready hp he
  | out => exact (step_of_out hp).trans (if_neg (Bool.eq_false_iff.1 he))
  | reset => cases he
  | reserved => exact absurd rfl hr

/-- A step that answers a next state was not offered the reserved kind first (R69). -/
theorem ne_reserved_of_step {s t : State} {h : Txn} {rest : List Txn} (hp : s.pending = h :: rest)
    (hstep : step s = .next t) : h ≠ .reserved := by
  rintro rfl
  cases (step_of_reserved hp).symm.trans hstep

/-- A step takes the first transaction exactly where it is enabled (R49). -/
theorem pending_of_step {s t : State} {h : Txn} {rest : List Txn} (hp : s.pending = h :: rest)
    (hstep : step s = .next t) : t.pending = if enabled h s then rest else h :: rest := by
  cases he : enabled h s with
  | true =>
    obtain ⟨u, hu, hpending, -⟩ := step_of_enabled hp he
    cases hu.symm.trans hstep
    exact hpending
  | false =>
    cases (step_of_not_enabled hp (ne_reserved_of_step hp hstep) he).symm.trans hstep
    exact hp

theorem txnStep_eq_none {s : State} {t : Txn} : txnStep s t = none ↔ enabled t s = false := by
  cases he : enabled t s with
  | true =>
    obtain ⟨u, hu, -⟩ := step_of_enabled (offer_pending t s) ((enabled_offer t t s).trans he)
    simp [txnStep_eq_some.2 ⟨he, hu⟩]
  | false => simp [txnStep, he]

theorem txnOutcome_of_not_enabled {s : State} {t : Txn} (he : enabled t s = false) : txnOutcome s t = none := by
  cases t with
  | out => exact if_neg (Bool.eq_false_iff.1 he)
  | _ => rfl

/-- Settles O12: R30's relation has a step for every enabled transaction, and the machine's step holds every other. -/
theorem notEnabledIsHeld : Obligations.NotEnabledIsHeld :=
  ⟨fun _ _ => txnStep_eq_none, fun _ _ => txnOutcome_of_not_enabled, fun _ _ _ => step_of_not_enabled⟩

/-- Settles O42: the first transaction is enabled, or held, or of the reserved kind. -/
theorem noInputRaisesAFault : Obligations.NoInputRaisesAFault := by
  intro s
  cases hp : s.pending with
  | nil => exact .inl ⟨s, step_of_nil hp⟩
  | cons h rest =>
    by_cases hr : h = .reserved
    · subst hr
      exact .inr ⟨step_of_reserved hp, rest, rfl⟩
    · cases he : enabled h s with
      | true => exact .inl ((step_of_enabled hp he).imp fun _ ht => ht.1)
      | false => exact .inl ⟨s, step_of_not_enabled hp hr he⟩

/-- Settles O47: the step of an enabled transaction is R30's step, offered here from the list. -/
theorem onlyEnabledTransactionsAreConsumed : Obligations.OnlyEnabledTransactionsAreConsumed := by
  refine ⟨fun s t h rest => pending_of_step, fun s h he => ?_, fun s t h rest hp => ?_⟩
  · obtain ⟨u, hu, hpending, hdelivered⟩ := step_of_enabled (offer_pending h s) ((enabled_offer h h s).trans he)
    exact ⟨u, txnStep_eq_some.2 ⟨he, hu⟩, hpending, by rw [hdelivered, txnOutcome_offer, offer_delivered]⟩
  · have hoffer : offer h { s with pending := rest } = s := by rw [offer, ← hp]
    rw [txnStep_eq_some, hoffer, ← enabled_offer h h, hoffer]

/-! ## The flags, the held outcome and the sink -/

/-- Settles O43: by the transaction the step took, CHECK alone emits, and DELIVER and RESET alone clear. -/
theorem onlyCheckEmitsOnlyTakeAndResetClear : Obligations.OnlyCheckEmitsOnlyTakeAndResetClear := by
  intro s t h
  cases step_next h with
  | check b rest hp hs hv => exact ⟨fun _ _ => ⟨hs, b, rest, hp⟩, nofun, fun _ => .inl ⟨hs, b, rest, hp⟩⟩
  | deliver rest hp hv => exact ⟨nofun, fun _ _ => ⟨rest, .inl hp⟩, fun hk => absurd rfl hk⟩
  | reset rest hp => exact ⟨nofun, fun _ _ => ⟨rest, .inr hp⟩, fun _ => .inr ⟨rest, hp⟩⟩
  | _ =>
    exact ⟨fun hv ht => absurd (hv.symm.trans ht) Bool.false_ne_true,
      fun hv ht => absurd (ht.symm.trans hv) Bool.false_ne_true, fun hk => absurd rfl hk⟩

/-- Settles O44: a session that has ended is ready for no token, and of the two other transactions OUT leaves the phase alone. -/
theorem onlyResetLeavesDone : Obligations.OnlyResetLeavesDone := by
  intro s t hs h
  refine ⟨fun hne => ?_, fun tok rest hp => ?_⟩
  · cases step_next h with
    | reset rest hp => exact ⟨rest, hp⟩
    | sync rest hp hhunt hv => cases hs.symm.trans hhunt
    | load b rest hp hbody hv => cases hs.symm.trans hbody
    | check b rest hp hcheck hv => cases hs.symm.trans hcheck
    | eos => exact absurd rfl hne
    | _ => exact absurd hs hne
  · cases (step_inp_of_done hp hs).symm.trans h
    rfl

/-- Settles O45: of all operations DELIVER alone reaches the sink's list. -/
theorem outcomesAreDeliveredInOrder : Obligations.OutcomesAreDeliveredInOrder := by
  intro s t h
  cases step_next h with
  | deliver rest hp hv => exact .inr ⟨hv, rfl, ⟨rest, hp⟩, rfl⟩
  | _ => exact .inl rfl

/-- Settles O46: while an outcome is held no IN operation is enabled, and the two that are give it up and leave buf alone. -/
theorem heldOutcomeIsStable : Obligations.HeldOutcomeIsStable := by
  intro s t hv h
  have hheld : s.outValid ≠ false := Bool.ne_false_iff.2 hv
  cases step_next h with
  | stay => exact ⟨rfl, fun _ => ⟨rfl, rfl, rfl⟩⟩
  | deliver => exact ⟨rfl, nofun⟩
  | reset => exact ⟨rfl, nofun⟩
  | skip b rest hp hs hv' => exact absurd hv' hheld
  | sync rest hp hs hv' => exact absurd hv' hheld
  | load b rest hp hs hv' => exact absurd hv' hheld
  | check b rest hp hs hv' => exact absurd hv' hheld
  | eos b rest hp hs hv' => exact absurd hv' hheld

/-! ## The ports -/

/-- What a sample brings about it presents, and RESET goes before any handshake (R133). -/
theorem arbitrate_eq_some {p : PortIn} {s : State} {t : Txn} (h : arbitrate p s = some t) :
    enabled t s = true
      ∧ (t = .reset ∧ p.rst = true ∨ t = .out ∧ p.rst = false ∧ p.outReady = true
        ∨ t = .inp { eos := p.inEos, data := p.inData } ∧ p.rst = false ∧ p.inValid = true) := by
  unfold arbitrate at h
  split at h
  · rename_i hrst
    cases h
    exact ⟨rfl, .inl ⟨rfl, hrst⟩⟩
  · rename_i hrst
    have hrst : p.rst = false := Bool.eq_false_iff.2 hrst
    split at h
    · rename_i hout
      obtain ⟨hready, hv⟩ := Bool.and_eq_true_iff.1 hout
      cases h
      exact ⟨hv, .inr (.inl ⟨rfl, hrst, hready⟩)⟩
    · split at h
      · rename_i hin
        obtain ⟨hvalid, hready⟩ := Bool.and_eq_true_iff.1 hin
        cases h
        exact ⟨hready, .inr (.inr ⟨rfl, hrst, hvalid⟩)⟩
      · cases h

theorem portStep_of_some {p : PortIn} {s : State} {t : Txn} (h : arbitrate p s = some t) :
    portStep p s = step (offer t s) := by
  rw [portStep, h]

theorem portStep_of_none {p : PortIn} {s : State} (h : arbitrate p s = none) : portStep p s = .next s := by
  rw [portStep, h]
  rfl

theorem arbitrate_of_rst {p : PortIn} (s : State) (hr : p.rst = true) : arbitrate p s = some .reset :=
  if_pos hr

theorem arbitrate_out {p : PortIn} {s : State} (hr : p.rst = false) (ho : p.outReady = true) (hv : s.outValid = true) :
    arbitrate p s = some .out := by
  simp [arbitrate, hr, ho, hv]

/-- No outcome is held in a state that is ready for a token, so OUT does not come before it (R37). -/
theorem arbitrate_inp {p : PortIn} {s : State} (hr : p.rst = false) (hi : p.inValid = true) (hready : inReady s = true) :
    arbitrate p s = some (.inp { eos := p.inEos, data := p.inData }) := by
  simp [arbitrate, hr, hi, hready, (inReady_iff.1 hready).2]

/-- Settles O49: what is brought about is enabled, so it is the one transaction that the step takes. -/
theorem portsRespectEnablingAndReset : Obligations.PortsRespectEnablingAndReset := by
  refine ⟨fun _ _ _ => arbitrate_eq_some, fun p s t h => ⟨portStep_of_some h, ?_⟩, fun _ _ => portStep_of_none,
    fun _ => arbitrate_of_rst, fun _ _ => arbitrate_out, fun _ _ => arbitrate_inp, fun p s hr => ?_⟩
  · have he : enabled t (offer t s) = true := (enabled_offer t t s).trans (arbitrate_eq_some h).1
    obtain ⟨u, hu, hpending, -⟩ := step_of_enabled (offer_pending t s) he
    exact ⟨u, (portStep_of_some h).trans hu, hpending⟩
  · have hstep : portStep p s = execReset (offer .reset s) :=
      (portStep_of_some (arbitrate_of_rst s hr)).trans (step_of_reset rfl)
    exact ⟨_, hstep, rfl, rfl, rfl, rfl⟩

end Sys2Proof.Proofs
end

section
/-! What each operation leaves unchanged whenever it answers a next state, and the operations outside their enabling conditions. -/

namespace Sys2Proof.Proofs

open Sys2Proof Sys2Proof.Machine

/-! ## Outside the enabling condition -/

/-- An IN operation of another phase, or run while an outcome is held, is a hold. -/
theorem whenIn_outside {p : Phase} {s : State} (h : s.phase ≠ p ∨ s.outValid = true) (act : State → Result) :
    whenIn p s act = .next s := by
  have hne : ¬ (s.phase = p ∧ s.outValid = false) := by
    rintro ⟨hp, hv⟩
    exact h.elim (absurd hp) fun hheld => Bool.false_ne_true (hv.symm.trans hheld)
  exact whenIn_of_not_enabled (Bool.eq_false_iff.2 fun he => hne (inEnabled_iff.1 he)) act

/-- Settles O13: each operation is held by its enabling condition, and SKIP by its byte too. -/
theorem operationOutsideItsPhaseIsHeld : Obligations.OperationOutsideItsPhaseIsHeld := by
  refine ⟨fun s b h => ?_, fun s h => ⟨?_, ?_⟩, fun s b h => ⟨?_, ?_⟩, fun s b h => ⟨?_, ?_⟩, fun s hv => ?_⟩
  · by_cases hb : b = Config.syncByte
    · exact if_pos hb
    · have h' : s.phase ≠ .hunt ∨ s.outValid = true := h.imp_right fun h => h.resolve_right hb
      exact (if_neg hb).trans (whenIn_outside h' _)
  · rw [exec, execSync, whenIn_outside h]
  · rw [exec, execEosIdle, whenIn_outside h]
  · rw [exec, execLoad, whenIn_outside h]
  · rw [exec, execEosBody, whenIn_outside h]
  · rw [exec, execCheck, whenIn_outside h]
  · rw [exec, execEosCheck, whenIn_outside h]
  · exact if_neg (Bool.eq_false_iff.1 hv)

/-- Settles O18: beyond the last byte the write reaches none, and the phase test meets no such count. -/
theorem loadOutsideTheBufferWritesNothing : Obligations.LoadOutsideTheBufferWritesNothing := by
  intro s b hp hv hcnt
  have hbuf : memWrite s.buf (loadIndex s) b = s.buf := memWrite_outside s.buf b hcnt
  have hindex : loadIndex s ≠ Config.dataLen - 1 := (Nat.lt_of_lt_of_le (by decide : Config.dataLen - 1 < 24) hcnt).ne'
  rw [exec_load_of_body b hp hv, loadByte, loadIndex_consume, consume_buf, hbuf, if_neg hindex]
  rfl

/-! ## RESET, from every state -/

/-- Settles O21: RESET is enabled in every state, and HUNT with nothing held is ready. -/
theorem resetStartsASession : Obligations.ResetStartsASession :=
  fun s => ⟨outKindOfBit (Config.freeOutKind s.freeCount), s.freeCount + 1, _, rfl, rfl, rfl, rfl⟩

/-! ## The frame of each operation -/

/-- What SKIP and the EOS operations can do: take the token, and end the session or leave the phase. -/
theorem exec_skip_or_eos_next {s t : State} {i : Instr}
    (hi : (∃ b, i = .skip b) ∨ i = .eosIdle ∨ i = .eosBody ∨ i = .eosCheck) (h : exec i s = .next t) :
    t = s ∨ t = consume s ∨ (¬ ∃ b, i = .skip b) ∧ t = endSession (consume s) := by
  obtain ⟨b, rfl⟩ | rfl | rfl | rfl := hi
  · exact (execSkip_next h).symm.imp_right .inl
  · obtain ⟨-, -, ht⟩ | ht := execEosIdle_next h
    · exact .inr (.inr ⟨nofun, ht⟩)
    · exact .inl ht
  · obtain ⟨-, -, ht⟩ | ht := execEosBody_next h
    · exact .inr (.inr ⟨nofun, ht⟩)
    · exact .inl ht
  · obtain ⟨-, -, ht⟩ | ht := execEosCheck_next h
    · exact .inr (.inr ⟨nofun, ht⟩)
    · exact .inl ht

/-- Settles O24: none of what these operations can do touches anything but the phase and the transactions. -/
theorem skipAndEosFrame : Obligations.SkipAndEosFrame := by
  intro s t i hi h
  obtain rfl | rfl | ⟨hne, rfl⟩ := exec_skip_or_eos_next hi h
  · exact ⟨rfl, rfl, rfl, rfl, rfl, rfl, fun _ => rfl, fun _ => rfl⟩
  · exact ⟨rfl, rfl, rfl, rfl, rfl, rfl, fun _ => rfl, fun _ => rfl⟩
  · exact ⟨rfl, rfl, rfl, rfl, rfl, rfl, fun hskip => absurd hskip hne, fun _ => rfl⟩

/-- Settles O23: LOAD writes at its own index, and no flag. -/
theorem loadFrame : Obligations.LoadFrame := by
  intro s t b h
  obtain ⟨-, -, rfl⟩ | rfl := execLoad_next h
  · refine ⟨fun a ha x hx => ?_, rfl, rfl, rfl, rfl⟩
    subst ha
    exact memRead_memWrite_ne s.buf b hx
  · exact ⟨fun _ _ _ _ => rfl, rfl, rfl, rfl, rfl⟩

/-- Settles O25: SYNC opens a frame or is held. -/
theorem syncFrame : Obligations.SyncFrame := by
  intro s t h
  obtain ⟨-, -, rfl⟩ | rfl := execSync_next h
  · exact ⟨rfl, rfl, rfl, rfl, fun _ => rfl⟩
  · exact ⟨rfl, rfl, rfl, rfl, fun _ => rfl⟩

/-- Settles O26: CHECK emits the outcome and returns to HUNT, or is held. -/
theorem checkFrame : Obligations.CheckFrame := by
  intro s t c h
  obtain ⟨-, -, rfl⟩ | rfl := execCheck_next h
  · exact ⟨rfl, rfl, rfl, fun _ => rfl⟩
  · exact ⟨rfl, rfl, rfl, fun _ => rfl⟩

/-- Settles O27: DELIVER hands the outcome over or is held. -/
theorem deliverFrame : Obligations.DeliverFrame := by
  intro s t h
  obtain ⟨-, rfl⟩ | ⟨-, rfl⟩ := execDeliver_next h
  · exact ⟨rfl, rfl, rfl, rfl, rfl, fun _ => rfl⟩
  · exact ⟨rfl, rfl, rfl, rfl, rfl, fun _ => rfl⟩

/-- Settles O28: RESET writes neither the list of what the sink has taken nor buf. -/
theorem resetFrame : Obligations.ResetFrame := by
  intro s t h
  cases h
  exact ⟨rfl, fun _ => rfl⟩

/-- Settles O22: the frame of each operation but LOAD has every byte of buf. -/
theorem onlyLoadWritesTheBuffer : Obligations.OnlyLoadWritesTheBuffer := by
  intro s t i hload h
  have hskipEos (hi : (∃ b, i = .skip b) ∨ i = .eosIdle ∨ i = .eosBody ∨ i = .eosCheck) :
      ∀ a, memRead t.buf a = memRead s.buf a := by
    obtain ⟨-, -, -, -, -, -, -, hbuf⟩ := skipAndEosFrame s t i hi h
    exact hbuf
  cases i with
  | skip b => exact hskipEos (.inl ⟨b, rfl⟩)
  | eosIdle => exact hskipEos (.inr (.inl rfl))
  | eosBody => exact hskipEos (.inr (.inr (.inl rfl)))
  | eosCheck => exact hskipEos (.inr (.inr (.inr rfl)))
  | load b => exact absurd rfl (hload b)
  | sync =>
    obtain ⟨-, -, -, -, hbuf⟩ := syncFrame s t h
    exact hbuf
  | check b =>
    obtain ⟨-, -, -, hbuf⟩ := checkFrame s t b h
    exact hbuf
  | deliver =>
    obtain ⟨-, -, -, -, -, hbuf⟩ := deliverFrame s t h
    exact hbuf
  | reset => exact (resetFrame s t h).2

end Sys2Proof.Proofs
end

section
/-! The output word (R63), and the Record as numbers and as bytes: unpacking undoes the wire form of every Record in range (R75, R121). -/

namespace Sys2Proof.Proofs

open Sys2Proof Sys2Proof.Machine

/-! ## The output word -/

/-- A word with a kind in front carries that kind and the data after it (R63). -/
theorem outWordAllowed_append {s : State} (hv : s.outValid = true) (k : BitVec 1) (d : DataWord) :
    outWordAllowed s (k ++ d) = true ↔ k = outKindBit s.outKind ∧ (s.outKind = .corrupt ∨ d = bufWord s.buf) := by
  have hkind : (k ++ d : OutWord).extractLsb' (Config.tokenDataWidth * Config.dataLen) 1 = k :=
    BitVec.extractLsb'_append_eq_left
  have hdata : (k ++ d : OutWord).extractLsb' 0 (Config.tokenDataWidth * Config.dataLen) = d :=
    BitVec.extractLsb'_append_eq_right
  rw [outWordAllowed, hkind, hdata, hv]
  simp

/-- Settles O34: by the kind held, which one bit tells. -/
theorem outputWordCarriesKindAndData : Obligations.OutputWordCarriesKindAndData := by
  intro s d hv
  rw [outWordAllowed_append hv, outWordAllowed_append hv]
  cases s.outKind with
  | record => simp [outKindBit]
  | corrupt => simp [outKindBit]

/-! ## The ranges of the unpacked fields -/

/-- Settles O32: f0 is a word of 32 bits, and each other entry a word of 16 bits in two's complement. -/
theorem unpackedFieldsAreInRange : Obligations.UnpackedFieldsAreInRange := by
  intro d
  have hlength : (recordList (unpack d)).length = 11 := by simp [recordList]
  have hf0 : u32Of (d 0) (d 1) (d 2) (d 3) < 2 ^ 32 := BitVec.isLt _
  refine ⟨hlength, Nat.le_of_lt_succ hf0, fun k v hk hkv => ?_⟩
  obtain ⟨j, rfl⟩ := Nat.exists_eq_add_of_le' hk
  obtain ⟨hlt, -⟩ := List.getElem?_eq_some_iff.1 hkv
  rw [recordList_unpack_succ d (by omega), Option.some_inj] at hkv
  subst hkv
  have hlow : -2 ^ 15 ≤ s16Of (d (2 * j + 4)) (d (2 * j + 5)) := BitVec.le_toInt _
  have hhigh : s16Of (d (2 * j + 4)) (d (2 * j + 5)) < 2 ^ 15 := BitVec.toInt_lt
  omega

/-! ## The wire bytes of a Record -/

theorem byteOf_toNat (v : BitVec 32) (i : Nat) : (byteOf v i).toNat = v.toNat / 2 ^ (8 * i) % 256 := by
  rw [byteOf, BitVec.extractLsb'_toNat, Nat.shiftRight_eq_div_pow]
  rfl

/-- The four bytes of a u32 make up its number again (R11, R75). -/
theorem u32Of_bytes {v : Nat} (h : v < 2 ^ 32) :
    u32Of (byteOf (BitVec.ofNat 32 v) 3) (byteOf (BitVec.ofNat 32 v) 2) (byteOf (BitVec.ofNat 32 v) 1)
      (byteOf (BitVec.ofNat 32 v) 0) = v := by
  have hv : (BitVec.ofNat 32 v).toNat = v := by rw [BitVec.toNat_ofNat, Nat.mod_eq_of_lt h]
  simp only [u32Of_eq, byteOf_toNat, hv]
  omega

/-- The two bytes of an s16 make up its number again (R11, R75). -/
theorem s16Of_bytes {v : Int} (h : s16InRange v = true) :
    s16Of (byteOf (BitVec.ofInt 32 v) 1) (byteOf (BitVec.ofInt 32 v) 0) = v := by
  have hrange : -32768 ≤ v ∧ v ≤ 32767 := by simpa [s16InRange] using h
  have hv : (BitVec.ofInt 32 v).toNat = (v % 4294967296).toNat := BitVec.toNat_ofInt v
  simp only [s16Of_eq, byteOf_toNat, hv]
  split <;> omega

/-- The bytes of the field at place `j` of a list stand at places `2j` and `2j + 1`. -/
theorem getElem?_flatMap_s16Bytes {l : List Int} {j : Nat} {v : Int} (h : l[j]? = some v) :
    (l.flatMap s16Bytes)[2 * j]? = some (byteOf (BitVec.ofInt 32 v) 1)
      ∧ (l.flatMap s16Bytes)[2 * j + 1]? = some (byteOf (BitVec.ofInt 32 v) 0) := by
  induction l generalizing j with
  | nil => cases h
  | cons w l ih =>
    cases j with
    | zero =>
      cases h
      exact ⟨rfl, rfl⟩
    | succ j => exact ih h

/-- The bytes of field `j + 1` stand at places `2j + 4` and `2j + 5` of the wire, after the four of f0 (R62). -/
theorem recordBytes_getD_field (r : Record) {j : Nat} (hj : j < 10) :
    (recordBytes r).getD (2 * j + 4) 0#8 = byteOf (BitVec.ofInt 32 r.fs[j]) 1
      ∧ (recordBytes r).getD (2 * j + 5) 0#8 = byteOf (BitVec.ofInt 32 r.fs[j]) 0 := by
  have hfield : r.fs.toList[j]? = some r.fs[j] := by simp [hj]
  obtain ⟨hhigh, hlow⟩ := getElem?_flatMap_s16Bytes hfield
  have hskip : ∀ k, (recordBytes r)[k + 4]? = (r.fs.toList.flatMap s16Bytes)[k]? := fun _ => rfl
  rw [List.getD_eq_getElem?_getD, List.getD_eq_getElem?_getD, hskip, hskip (2 * j + 1), hhigh, hlow]
  exact ⟨rfl, rfl⟩

/-- Unpacking reads back every field of a Record in range. -/
theorem unpack_recordBytes {r : Record} (h : recordInRange r = true) : unpack (fun i => (recordBytes r).getD i 0#8) = r := by
  have hrange : r.f0 < 2 ^ 32 ∧ ∀ v ∈ r.fs.toList, s16InRange v = true := by
    simpa only [recordInRange, Bool.and_eq_true, decide_eq_true_eq, List.all_eq_true] using h
  obtain ⟨hf0, hfs⟩ := hrange
  refine congrArg₂ Record.mk (u32Of_bytes hf0) (Vector.ext fun j hj => ?_)
  obtain ⟨hhigh, hlow⟩ := recordBytes_getD_field r hj
  rw [Vector.getElem_ofFn]
  exact (congrArg₂ s16Of hhigh hlow).trans (s16Of_bytes (hfs _ (by simp)))

/-- Settles O33: a Record has four bytes and twenty, and each field is read from the bytes it was written to. -/
theorem unpackOfRecordBytes : Obligations.UnpackOfRecordBytes :=
  fun r h => ⟨recordBytes_length r, unpack_recordBytes h⟩

end Sys2Proof.Proofs
end

section
/-! The laws of the CRC: one turn of the loop is linear and reversible, so the step is linear, and folding in the register itself gives
zero (R105, R106); and the step is a remainder by x^8 + x^2 + x + 1 (R100). -/

namespace Sys2Proof.Proofs

open Sys2Proof Sys2Proof.Machine

/-! ## One turn of the loop -/

/-- One turn of the loop: the register moves up, and its top bit, moved out, brings in the polynomial. -/
theorem crcShift_eq (c : CrcReg) : crcShift c = (c <<< 1) ^^^ if c.getLsbD 7 then 0x07#8 else 0#8 := by
  by_cases htop : c.getLsbD 7 = true
  · rw [if_pos htop]
    exact if_pos htop
  · rw [if_neg htop, BitVec.xor_zero]
    exact if_neg htop

/-- The polynomial of two top bits is that of their exclusive-or. -/
theorem poly_xor (a b : Bool) :
    (if (a ^^ b) then 0x07#8 else 0#8) = (if a then 0x07#8 else 0#8) ^^^ (if b then 0x07#8 else 0#8) := by
  cases a <;> cases b <;> rfl

theorem crcShift_xor (a b : CrcReg) : crcShift (a ^^^ b) = crcShift a ^^^ crcShift b := by
  rw [crcShift_eq, crcShift_eq, crcShift_eq, BitVec.getLsbD_xor, poly_xor, BitVec.shiftLeft_xor_distrib]
  ac_rfl

theorem crcShift_eq_zero : ∀ c : CrcReg, crcShift c = 0#8 ↔ c = 0#8 := by
  decide

/-! ## The step -/

theorem repeat_crcShift_xor (n : Nat) (a b : CrcReg) :
    Nat.repeat crcShift n (a ^^^ b) = Nat.repeat crcShift n a ^^^ Nat.repeat crcShift n b := by
  induction n with
  | zero => rfl
  | succ n ih => rw [Nat.repeat, ih, crcShift_xor, Nat.repeat, Nat.repeat]

theorem repeat_crcShift_eq_zero (n : Nat) (c : CrcReg) : Nat.repeat crcShift n c = 0#8 ↔ c = 0#8 := by
  induction n with
  | zero => rfl
  | succ n ih => rw [Nat.repeat, crcShift_eq_zero, ih]

theorem crc8Step_xor (r r' : CrcReg) (b b' : Byte) :
    crc8Step (r ^^^ r') (b ^^^ b') = crc8Step r b ^^^ crc8Step r' b' := by
  have hsum : (r ^^^ r') ^^^ (b ^^^ b') = (r ^^^ b) ^^^ (r' ^^^ b') := by ac_rfl
  rw [crc8Step, crcIn_eq, hsum, repeat_crcShift_xor]
  rfl

/-- Settles O36: the loop starts from the exclusive-or of register and byte, and each turn is linear. -/
theorem crcStepIsLinear : Obligations.CrcStepIsLinear :=
  ⟨crc8Step_xor, fun r b => by rw [crc8Step, crc8Step, crcIn_eq, crcIn_eq, BitVec.zero_xor]⟩

theorem crc8Step_eq_zero (r : CrcReg) (c : Byte) : crc8Step r c = 0#8 ↔ c = r := by
  rw [crc8Step, crcIn_eq, repeat_crcShift_eq_zero, BitVec.xor_eq_zero_iff]
  exact eq_comm

/-- Settles O37: the loop gives zero from zero only, and it starts from zero exactly when the byte is the register. -/
theorem crcResidue : Obligations.CrcResidue :=
  ⟨crc8Step_eq_zero, fun m c => by rw [crc8_append_one, crc8Step_eq_zero]⟩

/-! ## The remainder -/

/-- x^8 + x^2 + x + 1 times x^i, or nothing. -/
def polyTerm (top : Bool) (i : Nat) : BitVec 16 := if top then 0x107#16 <<< i else 0#16

/-- One turn of the loop is one step of the division: the register times x is its next value, less the polynomial where the
top bit was set. -/
theorem shiftLeft_one_eq_crcShift :
    ∀ c : CrcReg, c.setWidth 16 <<< 1 = (crcShift c).setWidth 16 ^^^ polyTerm (c.getLsbD 7) 0 := by
  decide

/-- The same, `i` places further up. -/
theorem shiftLeft_succ_eq_crcShift (c : CrcReg) (i : Nat) :
    c.setWidth 16 <<< (i + 1) = (crcShift c).setWidth 16 <<< i ^^^ polyTerm (c.getLsbD 7) i := by
  have hterm : polyTerm (c.getLsbD 7) 0 <<< i = polyTerm (c.getLsbD 7) i := by
    cases c.getLsbD 7 <;> simp [polyTerm]
  rw [Nat.add_comm, BitVec.shiftLeft_add, shiftLeft_one_eq_crcShift, BitVec.shiftLeft_xor_distrib, hterm]

/-- Bit `i` of the quotient is the top bit that the loop's turn `7 - i` moves out. -/
def crcQuotient (c : CrcReg) : Byte := BitVec.ofFnLE fun i : Fin 8 => (Nat.repeat crcShift (7 - i) c).getLsbD 7

theorem crcQuotient_bit (c : CrcReg) {i : Nat} (hi : i < 8) :
    (crcQuotient c).getLsbD i = (Nat.repeat crcShift (7 - i) c).getLsbD 7 := by
  rw [crcQuotient, BitVec.getLsbD_ofFnLE, dif_pos hi]

/-- The first `i` terms of the carry-less product of a byte and 0x107, added to `acc`. -/
def addProduct (q : Byte) (i : Nat) (acc : BitVec 16) : BitVec 16 :=
  (List.range i).foldl (fun acc j => if q.getLsbD j then acc ^^^ (0x107#16 <<< j) else acc) acc

theorem addProduct_succ (q : Byte) (i : Nat) (acc : BitVec 16) :
    addProduct q (i + 1) acc = addProduct q i acc ^^^ polyTerm (q.getLsbD i) i := by
  rw [addProduct, List.range_succ, List.foldl_append]
  cases h : q.getLsbD i <;> simp [addProduct, polyTerm, h]

/-- The division after `8 - i` turns: what is left of it is the product's first `i` terms and the remainder. -/
theorem repeat_crcShift_remainder (c : CrcReg) {i : Nat} (hi : i ≤ 8) :
    (Nat.repeat crcShift (8 - i) c).setWidth 16 <<< i
      = addProduct (crcQuotient c) i ((Nat.repeat crcShift 8 c).setWidth 16) := by
  induction i with
  | zero => exact BitVec.shiftLeft_zero _
  | succ i ih =>
    have hturns : 8 - (i + 1) = 7 - i := by omega
    have hturn : crcShift (Nat.repeat crcShift (7 - i) c) = Nat.repeat crcShift (8 - i) c := by
      rw [show 8 - i = 7 - i + 1 by omega, Nat.repeat]
    rw [hturns, shiftLeft_succ_eq_crcShift, hturn, ih (by omega), addProduct_succ, crcQuotient_bit c hi]

/-- Settles O35: the loop is the division of (r + b) x^8, one quotient bit a turn. -/
theorem crcStepIsPolynomialRemainder : Obligations.CrcStepIsPolynomialRemainder :=
  fun r b => ⟨crcQuotient (r ^^^ b), repeat_crcShift_remainder (r ^^^ b) (Nat.le_refl 8)⟩

end Sys2Proof.Proofs
end

section
/-! Runs of several steps through whole frames: hunting (R83), capturing (R92, R102), judging and delivering (R103, R120, R122), the
errors that are detected (R106), and the end of a stream inside a frame (R164). -/

namespace Sys2Proof.Proofs

open Sys2Proof Sys2Proof.Machine

/-! ## The step of each data token, where its operation is enabled -/

section DataToken

variable {s : State} {b : Byte} {rest : List Txn} (hp : s.pending = .inp { eos := false, data := b } :: rest)
  (hv : s.outValid = false)

include hp hv

theorem step_skip (hs : s.phase = .hunt) (hb : b ≠ Config.syncByte) : step s = .next (consume s) := by
  rw [step_of_data hp, hs]
  exact (if_neg hb).trans ((if_neg hb).trans (whenIn_of_phase hs hv _))

theorem step_sync (hs : s.phase = .hunt) (hb : b = Config.syncByte) :
    step s = .next { consume s with phase := .body, cnt := 0#Config.cntWidth, crc := Config.crcInit } := by
  rw [step_of_data hp, hs]
  exact (if_pos hb).trans (exec_sync_of_hunt hs hv)

theorem step_load (hs : s.phase = .body) : step s = .next (loadByte b (consume s)) :=
  (step_data_of_body hp hs).trans (exec_load_of_body b hs hv)

theorem step_check (hs : s.phase = .check) :
    step s = .next { emit (checkKind b s) (consume s) with phase := .hunt, cnt := 0#Config.cntWidth } := by
  rw [step_data_of_check hp hs, exec_check_of_check b hs hv, checkKind_eq]

end DataToken

/-! ## Hunting -/

/-- Settles O50: by induction on the noise, each byte of which is a SKIP that leaves the state as it was. -/
theorem resynchronization : Obligations.Resynchronization := by
  intro s noise rest hs hv hnoise hp
  induction noise generalizing s with
  | nil => exact runsTo_one ((step_sync hp hv hs rfl).trans (by simp [consume, hp, Config.crcInit, bytesLines]))
  | cons b noise ih =>
    have hb : b ≠ 0x41#8 := hnoise b List.mem_cons_self
    have hrest : (consume s).pending = bytesLines noise ++ lineB 0x41#8 :: rest := by rw [consume_pending, hp]; rfl
    exact runsTo_succ (step_skip hp hv hs hb)
      (ih (consume s) hs hv (fun b' hb' => hnoise b' (List.mem_cons_of_mem b hb')) hrest)

/-! ## Capturing -/

/-- What a run has done when the bytes `bs` of a frame opened in `s` have been captured, `rest` being offered next. -/
structure Captured (s : State) (bs : List Byte) (rest : List Txn) (t : State) : Prop where
  phase : t.phase = if bs.length = 24 then .check else .body
  cnt : t.cnt.toNat = bs.length
  crc : t.crc = crc8 bs
  bytes : ∀ i b, bs[i]? = some b → memRead t.buf i = b
  outValid : t.outValid = false
  pending : t.pending = rest
  delivered : t.delivered = s.delivered

/-- A frame just opened has captured nothing. -/
theorem captured_nil {s : State} {rest : List Txn} (hs : s.phase = .body) (hv : s.outValid = false) (hcnt : s.cnt = 0#5)
    (hcrc : s.crc = 0x00#8) (hp : s.pending = rest) : Captured s [] rest s where
  phase := hs
  cnt := by rw [hcnt]; rfl
  crc := by rw [hcrc, crc8_nil]
  bytes := nofun
  outValid := hv
  pending := hp
  delivered := rfl

/-- LOAD captures one byte more: at the place `cnt` counts, the 24th leading to CHECK. -/
theorem captured_load {s t : State} {bs : List Byte} {b : Byte} {rest : List Txn}
    (h : Captured s bs (lineB b :: rest) t) (hlen : bs.length < 24) :
    Captured s (bs ++ [b]) rest (loadByte b (consume t)) := by
  have hlt : t.cnt.toNat < Config.dataLen := h.cnt ▸ hlen
  have hindex : loadIndex t = bs.length := h.cnt
  have hphase : t.phase = .body := h.phase.trans (if_neg hlen.ne)
  exact {
    phase := by
      rw [loadByte_phase, loadIndex_consume, hindex, consume_phase, hphase, List.length_append, List.length_singleton]
      exact if_congr (by simp) rfl rfl
    cnt := by rw [loadByte_cnt, consume_cnt, count_succ hlt, h.cnt, List.length_append, List.length_singleton]
    crc := by rw [loadByte_crc, consume_crc, h.crc, crc8_append_one]
    bytes := fun i b' hi => by
      rw [loadByte_buf, loadIndex_consume, hindex, consume_buf]
      obtain hlt' | rfl | hgt := Nat.lt_trichotomy i bs.length
      · rw [List.getElem?_append_left hlt'] at hi
        rw [memRead_memWrite_ne t.buf b hlt'.ne, h.bytes i b' hi]
      · rw [List.getElem?_concat_length, Option.some_inj] at hi
        rw [memRead_memWrite_same t.buf b hlen, hi]
      · rw [List.getElem?_eq_none (by simp; omega)] at hi
        cases hi
    outValid := h.outValid
    pending := by rw [loadByte_pending, consume_pending, h.pending, List.tail_cons]
    delivered := h.delivered }

/-- From an opened frame, up to 24 data tokens are captured in as many steps (R92), the last one after those before it. -/
theorem run_capture {s : State} {bs : List Byte} {rest : List Txn} (hs : s.phase = .body) (hv : s.outValid = false)
    (hcnt : s.cnt = 0#5) (hcrc : s.crc = 0x00#8) (hlen : bs.length ≤ 24) (hp : s.pending = bytesLines bs ++ rest) :
    ∃ t, runsTo bs.length s t ∧ Captured s bs rest t := by
  induction bs using List.reverseRecOn generalizing rest with
  | nil => exact ⟨s, rfl, captured_nil hs hv hcnt hcrc hp⟩
  | append_singleton bs b ih =>
    have hlt : bs.length < 24 := by simpa using hlen
    obtain ⟨t, hrun, ht⟩ := ih (rest := lineB b :: rest) hlt.le (by simpa [bytesLines] using hp)
    have hphase : t.phase = .body := ht.phase.trans (if_neg hlt.ne)
    refine ⟨loadByte b (consume t), ?_, captured_load ht hlt⟩
    rw [List.length_append]
    exact runsTo_add hrun (runsTo_one (step_load ht.pending ht.outValid hphase))

/-- Settles O51: the run that captures the bytes. -/
theorem payloadCapture : Obligations.PayloadCapture := by
  intro s bs rest hs hv hcnt hcrc hlen hp
  obtain ⟨t, hrun, ht⟩ := run_capture hs hv hcnt hcrc hlen hp
  exact ⟨t, hrun, ht.phase, ht.cnt, ht.crc, ht.bytes, ht.outValid, ht.pending, ht.delivered⟩

/-- The sentinel and up to 24 data tokens, from HUNT. -/
theorem run_open_capture {s : State} {bs : List Byte} {rest : List Txn} (hs : s.phase = .hunt) (hv : s.outValid = false)
    (hlen : bs.length ≤ 24) (hp : s.pending = lineB 0x41#8 :: (bytesLines bs ++ rest)) :
    ∃ t, runsTo (bs.length + 1) s t ∧ Captured s bs rest t := by
  obtain ⟨t, hrun, ht⟩ := run_capture (s := { consume s with phase := .body, cnt := 0#5, crc := Config.crcInit })
    rfl hv rfl rfl hlen (by rw [consume_pending, hp]; rfl)
  exact ⟨t, runsTo_succ (step_sync hp hv hs rfl) hrun, { ht with }⟩

/-! ## Judging and delivering -/

/-- Unpack reads 24 bytes. -/
theorem unpack_congr {d d' : Nat → Byte} (h : ∀ i, i < 24 → d i = d' i) : unpack d = unpack d' := by
  have hf0 : u32Of (d 0) (d 1) (d 2) (d 3) = u32Of (d' 0) (d' 1) (d' 2) (d' 3) := by
    rw [h 0 (by decide), h 1 (by decide), h 2 (by decide), h 3 (by decide)]
  refine congrArg₂ Record.mk hf0 (Vector.ext fun j hj => ?_)
  have hj : j < 10 := hj
  rw [Vector.getElem_ofFn, Vector.getElem_ofFn]
  exact congrArg₂ s16Of (h _ (by simp; omega)) (h _ (by simp; omega))

/-- The 24 bytes captured are the Record unpacked. -/
theorem unpack_captured {s t : State} {bs : List Byte} {rest : List Txn} (h : Captured s bs rest t)
    (hlen : bs.length = 24) : unpack (memRead t.buf) = unpack fun i => bs.getD i 0#8 := by
  refine unpack_congr fun i hi => ?_
  have hget : bs[i]? = some bs[i] := List.getElem?_eq_getElem (hlen ▸ hi)
  rw [h.bytes i _ hget, List.getD_eq_getElem?_getD, hget, Option.getD_some]

/-- The outcome that CHECK holds: the Record in buf if the byte is the CRC, and CORRUPT if not (R103, R120). -/
theorem heldOutcome_check (c : Byte) (t : State) :
    heldOutcome { emit (checkKind c t) t with phase := .hunt, cnt := 0#Config.cntWidth }
      = if c = t.crc then .record (unpack (memRead t.buf)) else .corrupt := by
  by_cases hc : c = t.crc
  · simp [heldOutcome, hc]
  · simp [heldOutcome, hc]

/-- A checksum byte and a TAKE, from CHECK: the outcome goes to the sink and the block hunts again. -/
theorem run_judge {t : State} {c : Byte} {rest : List Txn} (hs : t.phase = .check) (hv : t.outValid = false)
    (hp : t.pending = lineB c :: lineTake :: rest) :
    ∃ u, runsTo 2 t u
      ∧ u.delivered = t.delivered ++ [if c = t.crc then .record (unpack (memRead t.buf)) else .corrupt]
      ∧ u.phase = .hunt ∧ u.cnt = 0#5 ∧ u.outValid = false ∧ u.pending = rest := by
  have hrest : t.pending.tail = .out :: rest := by rw [hp]; rfl
  have htake : t.pending.tail.tail = rest := by rw [hrest, List.tail_cons]
  exact ⟨_, runsTo_succ (step_check hp hv hs) (runsTo_one (step_out_of_held hrest rfl)),
    congrArg (t.delivered ++ [·]) (heldOutcome_check c (consume t)), rfl, rfl, rfl, htake⟩

/-- Settles O52: the sentinel, the capture, and the judgement of what was captured. -/
theorem everyFrameIsJudgedByItsCrc : Obligations.EveryFrameIsJudgedByItsCrc := by
  intro s bs c rest hs hv hlen hp
  obtain ⟨t, hrun, ht⟩ := run_open_capture hs hv hlen.le hp
  obtain ⟨u, hjudge, hdelivered, hu⟩ := run_judge (ht.phase.trans (if_pos hlen)) ht.outValid ht.pending
  have hruns : runsTo (bs.length + 1 + 2) s u := runsTo_add hrun hjudge
  rw [hlen] at hruns
  rw [ht.delivered, ht.crc, unpack_captured ht hlen] at hdelivered
  exact ⟨u, hruns, hdelivered, hu⟩

/-- The lines of a frame, as the sentinel, the data tokens and the checksum token. -/
theorem frameOf_append (m : Byte) (data : List Byte) (rest : List Txn) :
    frameOf m data ++ rest = lineB 0x41#8 :: (bytesLines data ++ lineB (crc8 data ^^^ m) :: rest) := by
  simp [frameOf, Config.syncByte]

/-- Settles O53: the checksum byte is the CRC, and the bytes unpack to the Record they are of. -/
theorem frameRoundTrip : Obligations.FrameRoundTrip := by
  intro s r rest hr hs hv hp
  rw [frameLines, frameOf_append, BitVec.xor_zero] at hp
  obtain ⟨t, hrun, hdelivered, ht⟩ := everyFrameIsJudgedByItsCrc s _ _ rest hs hv (recordBytes_length r) hp
  rw [if_pos rfl, unpack_recordBytes hr] at hdelivered
  exact ⟨t, hrun, hdelivered, ht⟩

/-- A frame whose checksum byte is not the CRC of its data gives CORRUPT, whatever else is wrong with it. -/
theorem run_corrupt {s : State} {bs : List Byte} {c : Byte} {rest : List Txn} (hs : s.phase = .hunt)
    (hv : s.outValid = false) (hlen : bs.length = 24) (hc : c ≠ crc8 bs)
    (hp : s.pending = lineB 0x41#8 :: (bytesLines bs ++ lineB c :: lineTake :: rest)) :
    ∃ t, runsTo 27 s t ∧ t.delivered = s.delivered ++ [.corrupt]
      ∧ t.phase = .hunt ∧ t.cnt = 0#5 ∧ t.outValid = false ∧ t.pending = rest := by
  have hjudged := everyFrameIsJudgedByItsCrc s bs c rest hs hv hlen hp
  rwa [if_neg hc] at hjudged

/-! ## Errors -/

/-- Changing a byte, by exclusive-or with anything but zero, changes it. -/
theorem xor_ne_self {b m : Byte} (hm : m ≠ 0#8) : b ^^^ m ≠ b := fun h =>
  hm ((BitVec.xor_right_inj b).1 (h.trans BitVec.xor_zero.symm))

/-- Settles O54: the corrupted frame leaves HUNT with nothing held, where the good frame begins. -/
theorem corruptFrameThenGoodFrame : Obligations.CorruptFrameThenGoodFrame := by
  intro s m r r' rest hm hr' hs hv hp
  rw [frameXLines, frameOf_append] at hp
  obtain ⟨t, hrun, hdelivered, ht, -, htv, htp⟩ := run_corrupt hs hv (recordBytes_length r) (xor_ne_self hm) hp
  obtain ⟨u, hrun', hdelivered', hu⟩ := frameRoundTrip t r' rest hr' ht htv htp
  exact ⟨u, runsTo_add hrun hrun', by rw [hdelivered', hdelivered, List.append_assoc]; rfl, hu⟩

/-- Register and byte can each be told from the step's result, the other being known (R100). -/
theorem crc8Step_eq_iff (r r' : CrcReg) (b b' : Byte) : crc8Step r b = crc8Step r' b' ↔ r ^^^ r' = b ^^^ b' := by
  rw [← BitVec.xor_eq_zero_iff, ← crc8Step_xor, crc8Step_eq_zero]
  exact eq_comm

/-- Registers that differ still differ after the same bytes. -/
theorem foldl_crc8Step_inj {bs : List Byte} {r r' : CrcReg} (h : bs.foldl crc8Step r = bs.foldl crc8Step r') : r = r' := by
  induction bs generalizing r r' with
  | nil => exact h
  | cons b bs ih =>
    have hstep : r ^^^ r' = b ^^^ b := (crc8Step_eq_iff r r' b b).1 (ih h)
    rwa [BitVec.xor_self, BitVec.xor_eq_zero_iff] at hstep

/-- Changing one byte changes the register from there on. -/
theorem foldl_crc8Step_modify_ne {f : Byte → Byte} (hf : ∀ b, f b ≠ b) {bs : List Byte} {i : Nat} (hi : i < bs.length)
    (r : CrcReg) : (bs.modify i f).foldl crc8Step r ≠ bs.foldl crc8Step r := by
  induction bs generalizing i r with
  | nil => cases hi
  | cons b bs ih =>
    cases i with
    | zero =>
      intro h
      have hstep : r ^^^ r = f b ^^^ b := (crc8Step_eq_iff r r (f b) b).1 (foldl_crc8Step_inj h)
      rw [BitVec.xor_self] at hstep
      exact hf b (BitVec.xor_eq_zero_iff.1 hstep.symm)
    | succ i => exact ih (Nat.lt_of_succ_lt_succ hi) (crc8Step r b)

theorem crc8_modify_ne {f : Byte → Byte} (hf : ∀ b, f b ≠ b) {bs : List Byte} {i : Nat} (hi : i < bs.length) :
    crc8 (bs.modify i f) ≠ crc8 bs := by
  rw [crc8, crc8, crcOut_eq, crcOut_eq]
  exact foldl_crc8Step_modify_ne hf hi _

/-- Changing one byte of the data and its checksum spoils either the data or the checksum. -/
theorem modify_append_checksum (f : Byte → Byte) (c : Byte) {bs : List Byte} {i : Nat} (hi : i ≤ bs.length) :
    (bs ++ [c]).modify i f = bs.modify i f ++ [if i = bs.length then f c else c] := by
  induction bs generalizing i with
  | nil =>
    obtain rfl := Nat.le_zero.1 hi
    rfl
  | cons b bs ih =>
    cases i with
    | zero => simp
    | succ i => simp [ih (Nat.le_of_succ_le_succ hi)]

/-- A spoilt frame's checksum does not match: in the data one byte has changed, or all are as they were and the checksum has. -/
theorem checksum_modify_ne {f : Byte → Byte} (hf : ∀ b, f b ≠ b) {bs : List Byte} {i : Nat} (hi : i ≤ bs.length) :
    (if i = bs.length then f (crc8 bs) else crc8 bs) ≠ crc8 (bs.modify i f) := by
  by_cases h : i = bs.length
  · rw [if_pos h, List.modify_eq_self h.ge]
    exact hf (crc8 bs)
  · rw [if_neg h]
    exact (crc8_modify_ne hf (Nat.lt_of_le_of_ne hi h)).symm

theorem oneBit_ne_zero : ∀ j, j < 8 → 1#8 <<< j ≠ 0#8 := by
  decide

/-- Settles O55: the inverted bit changes one byte, so the checksum no longer matches. -/
theorem singleBitErrorGivesCorrupt : Obligations.SingleBitErrorGivesCorrupt := by
  intro s bs i j rest hlen hi hj hs hv hp
  have hflip : ∀ b : Byte, b ^^^ (1#8 <<< j) ≠ b := fun b => xor_ne_self (oneBit_ne_zero j hj)
  have hle : i ≤ bs.length := hlen ▸ Nat.le_of_lt_succ hi
  rw [modify_append_checksum _ _ hle, bytesLines, List.map_append, List.append_assoc] at hp
  obtain ⟨t, hrun, hdelivered, ht, -, htv⟩ :=
    run_corrupt hs hv ((List.length_modify ..).trans hlen) (checksum_modify_ne hflip hle) hp
  exact ⟨t, hrun, hdelivered, ht, htv⟩

/-! ## Truncation -/

/-- A frame cut before its checksum byte is the sentinel and some of its data bytes (R75). -/
theorem partLines_eq {n : Nat} (hn : n ≤ 24) (r : Record) :
    partLines n r = lineB 0x41#8 :: bytesLines ((recordBytes r).take n) := by
  have hlen : n ≤ (bytesLines (recordBytes r)).length := by simpa [bytesLines] using hn
  rw [partLines, frameLines, frameOf, List.take_succ_cons, List.take_append_of_le_length hlen, bytesLines, ← List.map_take]
  rfl

/-- Settles O56: inside a frame the block is ready, and EOS ends the session with the count as it stands. -/
theorem truncationIsSilent : Obligations.TruncationIsSilent := by
  intro s r n rest hn hs hv hp
  have hlen : ((recordBytes r).take n).length = n := by simp [hn]
  rw [partLines_eq hn, List.cons_append] at hp
  obtain ⟨t, hrun, ht⟩ := run_open_capture hs hv (hlen.trans_le hn) hp
  have hphase : t.phase ≠ .done := by
    rw [ht.phase]
    split <;> exact Phase.noConfusion
  have hend : step t = .next (endSession (consume t)) := step_eos_of_ready ht.pending (inReady_iff.2 ⟨hphase, ht.outValid⟩)
  have hruns := runsTo_add hrun (runsTo_one hend)
  rw [hlen] at hruns
  exact ⟨_, hruns, by simp [runEnded, ht.outValid], ht.cnt.trans hlen, ht.delivered,
    by rw [endSession_pending, consume_pending, ht.pending, List.tail_cons]⟩

end Sys2Proof.Proofs
end

section
/-! What never shows: the CRC register between frames (R154), and the bytes of buf that LOAD has not written in the present frame (R36).
Each is a simulation: two states that differ in nothing that shows take the same steps, and differ in nothing that shows. -/

namespace Sys2Proof.Proofs

open Sys2Proof Sys2Proof.Machine

/-! ## Waiting and simulating -/

/-- Nothing is offered, or what is offered first is held. -/
def Waits (s : State) : Prop := ∀ h rest, s.pending = h :: rest → h ≠ .reserved ∧ enabled h s = false

theorem step_of_waits {s : State} (h : Waits s) : step s = .next s := by
  cases hp : s.pending with
  | nil => exact step_of_nil hp
  | cons t rest =>
    obtain ⟨hr, he⟩ := h t rest hp
    exact step_of_not_enabled hp hr he

/-- A step waits, or takes the first transaction. -/
theorem waits_or_takes {s t : State} (hstep : step s = .next t) : Waits s ∧ t = s ∨ ∃ h, s.pending = h :: t.pending := by
  cases hp : s.pending with
  | nil =>
    cases (step_of_nil hp).symm.trans hstep
    exact .inl ⟨fun h rest hcons => absurd (hp.symm.trans hcons) (List.cons_ne_nil _ _).symm, rfl⟩
  | cons h rest =>
    have hr : h ≠ .reserved := ne_reserved_of_step hp hstep
    cases he : enabled h s with
    | true =>
      have hpending : t.pending = rest := (pending_of_step hp hstep).trans (if_pos he)
      exact .inr ⟨h, by rw [hpending]⟩
    | false =>
      cases (step_of_not_enabled hp hr he).symm.trans hstep
      refine .inl ⟨fun h' rest' hcons => ?_, rfl⟩
      cases hp.symm.trans hcons
      exact ⟨hr, he⟩

/-- A step that takes a transaction does not leave the list as it was. -/
theorem not_takes_self {s : State} : ¬ ∃ h, s.pending = h :: s.pending := by
  rintro ⟨h, hp⟩
  exact absurd (congrArg List.length hp) (by simp)

/-- Related states have related runs of the same length, if each step has its like. -/
theorem runsTo_simulation {R : State → State → Prop}
    (hstep : ∀ {s s' t : State}, R s s' → step s = .next t → ∃ t', step s' = .next t' ∧ R t t') {n : Nat} {s s' t : State}
    (h : R s s') (hrun : runsTo n s t) : ∃ t', runsTo n s' t' ∧ R t t' := by
  induction n generalizing s s' with
  | zero =>
    cases hrun
    exact ⟨s', rfl, h⟩
  | succ n ih =>
    obtain ⟨u, hu, hrun⟩ := hrun
    obtain ⟨u', hu', h⟩ := hstep h hu
    obtain ⟨t', hrun', h⟩ := ih h hrun
    exact ⟨t', runsTo_succ hu' hrun', h⟩

/-! ## The CRC register between frames -/

/-- The states are the same, or no frame is open and they differ in the CRC register at most. -/
def SameButClosedCrc (s s' : State) : Prop :=
  s' = s ∨ (s.phase ≠ .body ∧ s.phase ≠ .check) ∧ ∃ c, s' = { s with crc := c }

/-- Outside a frame no step reads the register, and SYNC and RESET write it. -/
theorem step_sameButClosedCrc {s s' t : State} (h : SameButClosedCrc s s') (hstep : step s = .next t) :
    ∃ t', step s' = .next t' ∧ SameButClosedCrc t t' := by
  obtain rfl | ⟨hclosed, c, rfl⟩ := h
  · exact ⟨t, hstep, .inl rfl⟩
  · obtain ⟨hwaits, rfl⟩ | htakes := waits_or_takes hstep
    · exact ⟨_, step_of_waits hwaits, .inr ⟨hclosed, c, rfl⟩⟩
    · cases step_next hstep with
      | stay => exact absurd htakes not_takes_self
      | skip b rest hp hs hv hb => exact ⟨_, step_skip hp hv hs hb, .inr ⟨hclosed, c, rfl⟩⟩
      | sync rest hp hs hv => exact ⟨_, step_sync hp hv hs rfl, .inl rfl⟩
      | load b rest hp hs hv => exact absurd hs hclosed.1
      | check b rest hp hs hv => exact absurd hs hclosed.2
      | eos b rest hp hs hv =>
        exact ⟨_, step_eos_of_ready hp (inReady_iff.2 ⟨hs, hv⟩), .inr ⟨⟨Phase.noConfusion, Phase.noConfusion⟩, c, rfl⟩⟩
      | deliver rest hp hv => exact ⟨_, step_out_of_held hp hv, .inr ⟨hclosed, c, rfl⟩⟩
      | reset rest hp => exact ⟨_, step_of_reset hp, .inl rfl⟩

/-- Settles O57: no frame is open in HUNT, and the CRC register is all that two related states can differ in. -/
theorem crcBetweenFramesDoesNotMatter : Obligations.CrcBetweenFramesDoesNotMatter := by
  intro n s t c hs hrun
  have hclosed : s.phase ≠ .body ∧ s.phase ≠ .check := by rw [hs]; exact ⟨Phase.noConfusion, Phase.noConfusion⟩
  obtain ⟨t', hrun', h⟩ := runsTo_simulation step_sameButClosedCrc (.inr ⟨hclosed, c, rfl⟩) hrun
  refine ⟨t', hrun', ?_⟩
  obtain rfl | ⟨-, c', rfl⟩ := h
  · exact ⟨rfl, rfl, rfl, rfl, rfl, rfl, rfl⟩
  · exact ⟨rfl, rfl, rfl, rfl, rfl, rfl, rfl⟩

/-! ## The bytes of buf that are not of the present frame -/

/-- Byte `i` can show: it is captured in the open frame, or belongs to the RECORD held. -/
def Shows (s : State) (i : Nat) : Prop :=
  i < 24 ∧ (s.phase = .body ∧ i < s.cnt.toNat ∨ s.phase = .check ∨ s.outValid = true ∧ s.outKind = .record)

/-- The states differ in bytes of buf that cannot show, at most. -/
def SameButUnshown (s s' : State) : Prop :=
  ∃ m, s' = { s with buf := m } ∧ ∀ i, Shows s i → memRead m i = memRead s.buf i

/-- Before the first byte of a frame, with nothing held, any two buffers will do. -/
theorem sameButUnshown_of_empty {s : State} (hbody : s.phase = .body → s.cnt = 0#5) (hcheck : s.phase ≠ .check)
    (hv : s.outValid = false) (m : Memory) : SameButUnshown s { s with buf := m } := by
  refine ⟨m, rfl, ?_⟩
  rintro i ⟨-, ⟨hs, hcnt⟩ | hs | ⟨hheld, -⟩⟩
  · rw [hbody hs] at hcnt
    cases hcnt
  · exact absurd hs hcheck
  · cases hv.symm.trans hheld

/-- A byte that can show after LOAD, but for the one LOAD writes, could show before. -/
theorem shows_of_shows_loadByte {s : State} {b : Byte} {i : Nat} (hs : s.phase = .body) (hv : s.outValid = false)
    (hne : i ≠ loadIndex s) (h : Shows (loadByte b s) i) : Shows s i := by
  have hshow : i ≤ loadIndex s → Shows s i := fun hle => ⟨h.1, .inl ⟨hs, Nat.lt_of_le_of_ne hle hne⟩⟩
  obtain ⟨hi, ⟨-, hcnt⟩ | hcheck | ⟨hheld, -⟩⟩ := h
  · have hwrap : (s.cnt + 1#5).toNat ≤ s.cnt.toNat + 1 := BitVec.toNat_add s.cnt 1#5 ▸ Nat.mod_le _ _
    exact hshow (Nat.le_of_lt_succ (hcnt.trans_le hwrap))
  · by_cases hlast : loadIndex s = Config.dataLen - 1
    · exact hshow (hlast ▸ Nat.le_of_lt_succ hi)
    · rw [loadByte_phase, if_neg hlast, hs] at hcheck
      cases hcheck
  · cases hv.symm.trans hheld

/-- DELIVER lets no byte show that could not. -/
theorem shows_of_shows_handOver {s : State} {i : Nat} (h : Shows (handOver s) i) : Shows s i := by
  obtain ⟨hi, hbody | hcheck | ⟨hheld, -⟩⟩ := h
  · exact ⟨hi, .inl hbody⟩
  · exact ⟨hi, .inr (.inl hcheck)⟩
  · cases hheld

/-- LOAD writes the same byte to both buffers. -/
theorem sameButUnshown_loadByte {s : State} {m : Memory} (b : Byte) (hs : s.phase = .body) (hv : s.outValid = false)
    (hm : ∀ i, Shows s i → memRead m i = memRead s.buf i) :
    SameButUnshown (loadByte b s) (loadByte b { s with buf := m }) := by
  refine ⟨memWrite m (loadIndex s) b, rfl, fun i hi => ?_⟩
  rw [loadByte_buf]
  by_cases hindex : i = loadIndex s
  · have hlt : loadIndex s < Config.dataLen := hindex ▸ hi.1
    rw [hindex, memRead_memWrite_same _ b hlt, memRead_memWrite_same _ b hlt]
  · rw [memRead_memWrite_ne _ b hindex, memRead_memWrite_ne _ b hindex]
    exact hm i (shows_of_shows_loadByte hs hv hindex hi)

/-- A RECORD held is read from bytes that can show. -/
theorem memRead_of_held {s : State} {m : Memory} (hm : ∀ i, Shows s i → memRead m i = memRead s.buf i)
    (hv : s.outValid = true) (hk : s.outKind = .record) {i : Nat} (hi : i < 24) : memRead m i = memRead s.buf i :=
  hm i ⟨hi, .inr (.inr ⟨hv, hk⟩)⟩

theorem heldOutcome_sameButUnshown {s : State} {m : Memory} (hm : ∀ i, Shows s i → memRead m i = memRead s.buf i)
    (hv : s.outValid = true) : heldOutcome { s with buf := m } = heldOutcome s := by
  cases hk : s.outKind with
  | record => simp [heldOutcome, hk, unpack_congr fun i hi => memRead_of_held hm hv hk hi]
  | corrupt => simp [heldOutcome, hk]

theorem outData_sameButUnshown {s : State} {m : Memory} (hm : ∀ i, Shows s i → memRead m i = memRead s.buf i) :
    outData { s with buf := m } = outData s := by
  cases hv : s.outValid with
  | false => simp [outData, hv]
  | true =>
    cases hk : s.outKind with
    | record =>
      have hword : bufWord m = bufWord s.buf := bytesWord_congr fun i hi => memRead_of_held hm hv hk hi
      simp [outData, hv, hk, hword]
    | corrupt => simp [outData, hv, hk]

/-- The outcome handed over is the same from both buffers. -/
theorem sameButUnshown_handOver {s : State} {m : Memory} (hm : ∀ i, Shows s i → memRead m i = memRead s.buf i)
    (hv : s.outValid = true) : SameButUnshown (handOver s) (handOver { s with buf := m }) := by
  refine ⟨m, ?_, fun i hi => hm i (shows_of_shows_handOver hi)⟩
  rw [handOver, heldOutcome_sameButUnshown hm hv]
  rfl

/-- Each operation writes, empties or hands over the same in both states. -/
theorem step_sameButUnshown {s s' t : State} (h : SameButUnshown s s') (hstep : step s = .next t) :
    ∃ t', step s' = .next t' ∧ SameButUnshown t t' := by
  obtain ⟨m, rfl, hm⟩ := h
  obtain ⟨hwaits, rfl⟩ | htakes := waits_or_takes hstep
  · exact ⟨_, step_of_waits hwaits, m, rfl, hm⟩
  · cases step_next hstep with
    | stay => exact absurd htakes not_takes_self
    | skip b rest hp hs hv hb => exact ⟨_, step_skip hp hv hs hb, m, rfl, hm⟩
    | sync rest hp hs hv =>
      exact ⟨_, step_sync hp hv hs rfl, sameButUnshown_of_empty
        (s := { consume s with phase := .body, cnt := 0#5, crc := Config.crcInit }) (fun _ => rfl) Phase.noConfusion hv m⟩
    | load b rest hp hs hv => exact ⟨_, step_load hp hv hs, sameButUnshown_loadByte (s := consume s) b hs hv hm⟩
    | check b rest hp hs hv => exact ⟨_, step_check hp hv hs, m, rfl, fun i hi => hm i ⟨hi.1, .inr (.inl hs)⟩⟩
    | eos b rest hp hs hv =>
      exact ⟨_, step_eos_of_ready hp (inReady_iff.2 ⟨hs, hv⟩),
        sameButUnshown_of_empty (s := endSession (consume s)) nofun Phase.noConfusion hv m⟩
    | deliver rest hp hv => exact ⟨_, step_out_of_held hp hv, sameButUnshown_handOver (s := consume s) hm hv⟩
    | reset rest hp => exact ⟨_, step_of_reset hp, sameButUnshown_of_empty (fun _ => rfl) Phase.noConfusion rfl m⟩

/-- Settles O58: nothing of buf can show in HUNT with nothing held, and what two related states hold is the same. -/
theorem staleBufferNeverShows : Obligations.StaleBufferNeverShows := by
  intro n s t m hs hv hrun
  have hempty : SameButUnshown s { s with buf := m } :=
    sameButUnshown_of_empty (fun hbody => nomatch hs.symm.trans hbody) (by rw [hs]; exact Phase.noConfusion) hv m
  obtain ⟨t', hrun', m', rfl, hm⟩ := runsTo_simulation step_sameButUnshown hempty hrun
  exact ⟨_, hrun', rfl, rfl, rfl, rfl, rfl, rfl, rfl, outData_sameButUnshown hm⟩

end Sys2Proof.Proofs
end

section
/-! Progress over a finite stream that ends in EOS (R171): some schedule decodes it to the end, and every schedule that is consumed whole
does. -/

namespace Sys2Proof.Proofs

open Sys2Proof Sys2Proof.Machine

theorem phase_of_live : ∀ p : Phase, p ≠ .done → p = .hunt ∨ p = .body ∨ p = .check := by
  intro p
  cases p <;> simp

/-- A data token offered to a ready block is taken and leaves the session open, whatever is offered after it. -/
theorem step_data_of_ready {s : State} (b : Byte) (hs : s.phase ≠ .done) (hv : s.outValid = false) :
    ∃ u : State, u.phase ≠ .done ∧ u.delivered = s.delivered
      ∧ ∀ rest, step { s with pending := lineB b :: rest } = .next { u with pending := rest } := by
  obtain hphase | hphase | hphase := phase_of_live s.phase hs
  · by_cases hb : b = Config.syncByte
    · exact ⟨{ s with phase := .body, cnt := 0#5, crc := Config.crcInit }, Phase.noConfusion, rfl,
        fun _ => step_sync rfl hv hphase hb⟩
    · exact ⟨s, hs, rfl, fun _ => step_skip rfl hv hphase hb⟩
  · exact ⟨loadByte b s, loadByte_phase_ne_done b hphase, rfl, fun _ => step_load rfl hv hphase⟩
  · exact ⟨{ emit (checkKind b s) s with phase := .hunt, cnt := 0#5 }, Phase.noConfusion, rfl,
      fun _ => step_check rfl hv hphase⟩

/-- The step of a data token, where it is taken, leaves the session open and hands nothing over. -/
theorem live_of_step_data {s u : State} {b : Byte} {rest : List Txn} (hp : s.pending = lineB b :: rest)
    (hr : inReady s = true) (hstep : step s = .next u) : u.phase ≠ .done ∧ u.delivered = s.delivered := by
  obtain ⟨hs, hv⟩ := inReady_iff.1 hr
  obtain ⟨v, hphase, hdelivered, hdata⟩ := step_data_of_ready b hs hv
  have hsame : { s with pending := lineB b :: rest } = s := by rw [← hp]
  cases (hdata rest).symm.trans ((congrArg step hsame).trans hstep)
  exact ⟨hphase, hdelivered⟩

/-! ## Some schedule -/

/-- Settles O59: by induction on the stream, with a TAKE after each token that leaves an outcome held. -/
theorem finiteStreamIsDecoded : Obligations.FiniteStreamIsDecoded := by
  intro s stream hs hv
  induction stream generalizing s with
  | nil =>
    have hend : step { s with pending := [lineEos] } = .next (endSession { s with pending := [] }) :=
      step_eos_of_ready rfl (inReady_iff.2 ⟨hs, hv⟩)
    exact ⟨[lineEos], _, rfl, runsTo_one hend, by simp [runEnded, hv], rfl, rfl⟩
  | cons b stream ih =>
    obtain ⟨u, hu, hdelivered, hstep⟩ := step_data_of_ready b hs hv
    cases huv : u.outValid with
    | false =>
      obtain ⟨schedule, t, hfilter, hrun, hended, hpending, hcount⟩ := ih u hu huv
      refine ⟨lineB b :: schedule, t, ?_, runsTo_succ (hstep schedule) hrun, hended, hpending, ?_⟩
      · rw [List.filter_cons_of_pos (by simp [lineB]), hfilter]
        rfl
      · rw [List.filter_cons_of_neg (by simp [lineB]), hcount, hdelivered]
    | true =>
      obtain ⟨schedule, t, hfilter, hrun, hended, hpending, hcount⟩ := ih (handOver u) hu rfl
      have htake : step { u with pending := .out :: schedule } = .next { handOver u with pending := schedule } :=
        step_out_of_held rfl huv
      refine ⟨lineB b :: .out :: schedule, t, ?_, runsTo_succ (hstep _) (runsTo_succ htake hrun), hended, hpending, ?_⟩
      · rw [List.filter_cons_of_pos (by simp [lineB]), List.filter_cons_of_neg (by simp), hfilter]
        rfl
      · rw [List.filter_cons_of_neg (by simp [lineB]), List.filter_cons_of_pos (by simp), hcount, handOver_delivered,
          hdelivered]
        simp only [List.length_append, List.length_cons, List.length_nil]
        omega

/-! ## Every schedule that is consumed whole -/

/-- A step takes one transaction at most. -/
theorem pending_length_of_step {s t : State} (h : step s = .next t) : s.pending.length ≤ t.pending.length + 1 := by
  obtain ⟨-, rfl⟩ | ⟨h, hp⟩ := waits_or_takes h
  · omega
  · rw [hp, List.length_cons]

theorem pending_length_of_runsTo {n : Nat} {s t : State} (h : runsTo n s t) :
    s.pending.length ≤ t.pending.length + n := by
  induction n generalizing s with
  | zero => exact h ▸ Nat.le_refl _
  | succ n ih =>
    obtain ⟨u, hu, h⟩ := h
    have hone := pending_length_of_step hu
    have hrest := ih h
    omega

/-- In a run as long as its schedule, and that consumes it whole, every step takes its transaction. -/
theorem enabled_of_consumed {s u t : State} {h : Txn} {rest : List Txn} (hp : s.pending = h :: rest)
    (hstep : step s = .next u) (hrun : runsTo rest.length u t) (ht : t.pending = []) :
    enabled h s = true ∧ u.pending = rest := by
  have hpending : u.pending = if enabled h s then rest else h :: rest := pending_of_step hp hstep
  cases he : enabled h s with
  | true => exact ⟨rfl, hpending.trans (if_pos he)⟩
  | false =>
    have hlength := pending_length_of_runsTo hrun
    rw [hpending, he, ht] at hlength
    simp at hlength

/-- With nothing held no OUT is taken, so a schedule of OUT alone that is consumed whole is at its end. -/
theorem schedule_nil_of_only_out {u t : State} {rest : List Txn} (hv : u.outValid = false) (hp : u.pending = rest)
    (hfilter : rest.filter (fun x => decide (x ≠ .out)) = [])
    (hrun : runsTo rest.length u t) (ht : t.pending = []) : rest = [] := by
  cases rest with
  | nil => rfl
  | cons h rest =>
    obtain ⟨v, hstep, hrun⟩ := hrun
    have hout : h = .out := by simpa using List.filter_eq_nil_iff.1 hfilter h List.mem_cons_self
    obtain ⟨he, -⟩ := enabled_of_consumed hp hstep hrun ht
    rw [hout, enabled_out, hv] at he
    cases he

/-- From any state of an open session, an outcome held or not, a schedule consumed whole ends the run. -/
theorem schedule_ends_run {s t : State} {stream : List Byte} {schedule : List Txn} (hs : s.phase ≠ .done)
    (hp : s.pending = schedule)
    (hfilter : schedule.filter (fun x => decide (x ≠ .out)) = bytesLines stream ++ [lineEos])
    (hrun : runsTo schedule.length s t) (ht : t.pending = []) :
    runEnded t = true
      ∧ t.delivered.length = s.delivered.length + (schedule.filter fun x => decide (x = .out)).length := by
  induction schedule generalizing s stream with
  | nil => cases stream <;> cases hfilter
  | cons h rest ih =>
    obtain ⟨u, hstep, hrun⟩ := hrun
    obtain ⟨he, hu⟩ := enabled_of_consumed hp hstep hrun ht
    by_cases hout : h = .out
    · subst hout
      cases (step_out_of_held hp he).symm.trans hstep
      rw [List.filter_cons_of_neg (by simp)] at hfilter
      obtain ⟨hended, hcount⟩ := ih (s := handOver (consume s)) hs hu hfilter hrun
      refine ⟨hended, ?_⟩
      rw [List.filter_cons_of_pos (by simp), hcount, handOver_delivered, consume_delivered]
      simp only [List.length_append, List.length_cons, List.length_nil]
      omega
    · rw [List.filter_cons_of_pos (by simpa using hout)] at hfilter
      rw [List.filter_cons_of_neg (by simpa using hout)]
      cases stream with
      | nil =>
        obtain ⟨rfl, hnil⟩ := List.cons.inj hfilter
        have hv : s.outValid = false := (inReady_iff.1 he).2
        cases (step_eos_of_ready hp he).symm.trans hstep
        obtain rfl := schedule_nil_of_only_out (u := endSession (consume s)) hv hu hnil hrun ht
        cases hrun
        exact ⟨by simp [runEnded, hv], rfl⟩
      | cons b stream =>
        obtain ⟨rfl, hrest⟩ := List.cons.inj hfilter
        obtain ⟨hlive, hdelivered⟩ := live_of_step_data hp he hstep
        obtain ⟨hended, hcount⟩ := ih hlive hu hrest hrun
        exact ⟨hended, by rw [hcount, hdelivered]⟩

/-- Settles O60: by induction on the schedule, every transaction of which is taken. -/
theorem everyScheduleEndsTheRun : Obligations.EveryScheduleEndsTheRun :=
  fun s _ _ schedule hs _ hfilter hrun ht =>
    schedule_ends_run (s := { s with pending := schedule }) hs rfl hfilter hrun ht

end Sys2Proof.Proofs
end
